-- ==== Sys2Proof/Word.lean ====
section
/-! DEFINITION. Word: the widths of spec/00_scope.md rule R10, as names. -/

namespace Sys2Proof

/-- One transport datum, 8 bits (R6, R10). -/
abbrev Byte := BitVec 8

/-- The address of a device register on a transport, 8 bits (R6). -/
abbrev RegAddr := BitVec 8

/-- An address 0..255 of the logical memory space (R10, R40). -/
abbrev LogicalAddr := BitVec 8

/-- A 64-bit bitmap, bit `8*r + c` for the key at row r, column c (R10, R70). -/
abbrev Snapshot := BitVec 64

/-- A word on the command port, CMD_W = 32 bits (R8, R80). -/
abbrev CmdWord := BitVec 32

/-- A row of the key matrix, 0..7 (R23). DESIGN CHOICE (log 18): the 3-bit register as a number below 8. -/
abbrev Row := Fin 8

/-- A key number, 0..63 (R70). -/
abbrev Key := Fin 64

/-- One of the two banks (R6 BANKS); `false` is bank 0, `true` is bank 1 (log 18). -/
abbrev Bank := Bool

end Sys2Proof
end

