-- ==== Sys2Proof/Syntax.lean ====
section
/-! DEFINITION. Syntax: one constructor per row of spec/opcode_table.json (R2, R81, R88). -/

namespace Sys2Proof

/-- The host commands. The operand widths are those of R85, so every value of this type is a command of R88. -/
inductive Instr where
  /-- `SCAN` (R81, R103). -/
  | scan
  /-- `READBLOCK base, length` (R81, R85, R132). -/
  | readblock (base : LogicalAddr) (length : BitVec 16)
  /-- `INVALIDATE` (R81, R140). -/
  | invalidate
deriving DecidableEq, Repr

end Sys2Proof
end

