-- ==== Sys2Proof/WellFormed.lean ====
section
/-! DEFINITION. WellFormed: which command words are commands (R80, R81, R82), and which operands are (R85, R88). -/

namespace Sys2Proof

/-- A row of the opcode map (R81). -/
structure OpcodeRow where
  mnemonic : String
  pattern : CmdWord
  mask : CmdWord
deriving DecidableEq, Repr

/-- The opcode map (R81, spec/opcode_table.json). -/
def opcodeMap : List OpcodeRow :=
  [ ⟨"SCAN", 0x10000000#32, 0xFFFFFFFF#32⟩,
    ⟨"READBLOCK", 0x20000000#32, 0xFF000000#32⟩,
    ⟨"INVALIDATE", 0x30000000#32, 0xFFFFFFFF#32⟩ ]

/-- "A word w encodes a command when `(w & mask) = match` for that row" (R81). -/
def OpcodeRow.covers (r : OpcodeRow) (w : CmdWord) : Bool := w &&& r.mask == r.pattern

/-- The operation field of a word is one of the map's (R80: `op = cmd[31:28]`). -/
def CmdWord.opKnown (w : CmdWord) : Bool :=
  let op := w.extractLsb' 28 4
  op == 1#4 || op == 2#4 || op == 3#4

/-- The must-be-zero field of the word's format is zero (R80; 93_implementation_defined.md V5): bits 27:24 for
format B (op 0x2), bits 27:0 for format Z. -/
def CmdWord.zeroFieldOk (w : CmdWord) : Bool :=
  if w.extractLsb' 28 4 == 2#4 then w.extractLsb' 24 4 == 0#4 else w.extractLsb' 0 28 == 0#28

/-- A word on the command port is well formed when some row covers it (R81); every other word is illegal (R82). -/
def CmdWord.wellFormed (w : CmdWord) : Bool := opcodeMap.any (·.covers w)

/-- The operand ranges of R88: base in 0..255, length in 0..65535. The operand types give them, so this holds of every
instruction and no term of `Instr` is ill formed; the checks that can fail are those on words. -/
def Instr.wellFormed : Instr → Bool
  | .scan => true
  | .readblock base length => decide (base.toNat ≤ 255) && decide (length.toNat ≤ 65535)
  | .invalidate => true

end Sys2Proof
end

