-- ==== Sys2Proof/Decode.lean ====
section
/-! DEFINITION. Decode: command words to instructions, total, illegal words refused by name (R80 to R82, R85); and the
encoder (R80, R131). -/

namespace Sys2Proof

/-- Why a word is no command: the classes of R82. -/
inductive IllegalWord where
  /-- op = 0x0 or op in 0x4..0xF. -/
  | reservedOp
  /-- op in 0x1, 0x3 with any of bits 27:0 set. -/
  | formatZNonzero
  /-- op = 0x2 with any of bits 27:24 set. -/
  | formatBNonzero
deriving DecidableEq, Repr

/-- What the decoder reads from a word. -/
inductive Decoded where
  | command (i : Instr)
  | illegal (why : IllegalWord)
deriving DecidableEq, Repr

/-- `op = cmd[31:28]` (R80). -/
def opField (w : CmdWord) : BitVec 4 := w.extractLsb' 28 4

/-- `base = cmd[7:0]` (R85). -/
def baseField (w : CmdWord) : LogicalAddr := w.extractLsb' 0 8

/-- `length = cmd[23:8]` (R85). -/
def lengthField (w : CmdWord) : BitVec 16 := w.extractLsb' 8 16

/-- The class of R82 a word that matches no row falls in. -/
def illegalClass (w : CmdWord) : IllegalWord :=
  if opField w = 1#4 then .formatZNonzero
  else if opField w = 3#4 then .formatZNonzero
  else if opField w = 2#4 then .formatBNonzero
  else .reservedOp

/-- The decoder: the rows of R81 by mask and match, and every other word illegal (R82). -/
def decode (w : CmdWord) : Decoded :=
  if w &&& 0xFFFFFFFF#32 = 0x10000000#32 then .command .scan
  else if w &&& 0xFF000000#32 = 0x20000000#32 then .command (.readblock (baseField w) (lengthField w))
  else if w &&& 0xFFFFFFFF#32 = 0x30000000#32 then .command .invalidate
  else .illegal (illegalClass w)

/-- The instruction the decoder reads, if any. -/
def Decoded.instr? : Decoded → Option Instr
  | .command i => some i
  | .illegal _ => none

/-- The command word of an instruction (R80; R131: `0x20000000 | (length << 8) | base`). -/
def encode : Instr → CmdWord
  | .scan => 0x10000000#32
  | .readblock base length => 0x20000000#32 ||| (length.setWidth 32 <<< 8) ||| base.setWidth 32
  | .invalidate => 0x30000000#32

/-- The word of the command port made of the low `nbits` bits of `w`, every bit above them zero. -/
def tableWord (nbits w : Nat) : CmdWord := BitVec.ofNat 32 (w % 2 ^ nbits)

/-- The instruction the decoder reads from a word numbered as spec/opcode_table.json numbers it. A command is one word
presented as a value (R56, R80), so no byte order enters (log 17). -/
def decodeTableWord (nbits w : Nat) : Option Instr := (decode (tableWord nbits w)).instr?

end Sys2Proof
end

