-- ==== Sys2Proof/Config.lean ====
section
/-! DEFINITION. Config: what the spec fixes (R6), what it leaves to the platform (R7), and the free values. -/

namespace Sys2Proof

/-- Which tags stand for an error of the platform's transports: uninterpreted (log 4). -/
opaque Config.errorTag : Nat → Bool

/-- What a failed transport transaction reports: the type TErr of R7 and D18, which the platform fixes and the block only
copies. DESIGN CHOICE (log 4): the tags that `Config.errorTag` admits, and 0, so that the type has a member; which others
there are is left open, so no proof sees more of the type than that it is comparable data. -/
structure TErr where
  tag : Nat
  admitted : tag = 0 ∨ Config.errorTag tag = true
deriving DecidableEq, Repr

/-- Which value of the bank-select bit selects bank 1 (R7 BANK_POLARITY). -/
inductive Polarity where
  | direct
  | inverted
deriving DecidableEq, Repr, Inhabited

/-- The parameters the source does not give (R7). The constraints of R7 hold by construction (log 3):
GCONF_ADDR has only its low 7 bits here, ROW_OUT_ADDR is given by its distance from COL_IN_ADDR, and
T_EEPROM_SETTLE by its predecessor; Machine/Operands.lean has the parameters themselves. -/
structure Params where
  /-- COL_IN_ADDR. -/
  colIn : RegAddr
  /-- ROW_OUT_ADDR - COL_IN_ADDR - 1 modulo 256, so that the two differ. -/
  rowOutGap : Fin 255
  /-- The low seven bits of GCONF_ADDR, whose top bit is 0 since it is not in 0x80..0xFF. -/
  gconfLow : BitVec 7
  /-- BANK_BIT. -/
  bankBit : Fin 8
  /-- BANK_POLARITY, direct where nothing else is said (R7, D14: "default direct"). -/
  polarity : Polarity := .direct
  /-- T_EEPROM_SETTLE - 1 (the duration is above 0). -/
  eepromSettlePred : Nat
  /-- T_SWITCH_SETTLE. -/
  switchSettle : Nat
deriving DecidableEq, Repr, Inhabited

/-- The two devices, each behind a transport of its own (R3, D15). -/
inductive Device where
  | key
  | mem
deriving DecidableEq, Repr

/-- The answer to a `MemRead` (R13, R14). -/
inductive ReadAnswer where
  | byte (v : Byte)
  | error (e : TErr)
deriving DecidableEq, Repr, Inhabited

/-- The answer to a `MemWrite` (R13, R14). -/
inductive WriteAnswer where
  | ok
  | error (e : TErr)
deriving DecidableEq, Repr, Inhabited

/-- N, the number of slots of the DebounceHistory ring (R6, D1). -/
abbrev Config.slots : Nat := 2

/-- The parameters of this machine (R7): uninterpreted, so no proof sees a value of theirs, nor that BANK_POLARITY has its
default (log 2). -/
opaque Config.params : Params

/-- The oracle's answer to the n-th unlisted read on a device (R14): a free value (log 1). -/
opaque Config.freeRead : Device → Nat → ReadAnswer

/-- The oracle's answer to the n-th unlisted write on a device (R14): a free value (log 1). -/
opaque Config.freeWrite : Device → Nat → WriteAnswer

/-- The n-th value `gconf_shadow` has when it "becomes unspecified" (R26, R140): a free value (log 7). -/
opaque Config.freeShadow : Nat → Byte

end Sys2Proof
end

