-- ==== Sys2Proof/Machine/State.lean ====
section
/-! DEFINITION. Machine/State: the state as plain data, the reasons a step stops, and the state after reset
(spec/10_state.md; INVENTORY.md, "State"). -/

namespace Sys2Proof.Machine

/-- The state of the KeyMatrixScanner (R20 to R24), for a ring of `n` slots (R6: rules hold for every N). -/
structure Scanner (n : Nat) where
  /-- `hist[0..N-1]`, the DebounceHistory (R21). -/
  hist : Vector Snapshot n
  /-- `stable`, the StableKeyState (R22). -/
  stable : Snapshot
  /-- `row`, the row the next SCAN samples (R23). -/
  row : Row
  /-- `slot`, the ring slot of the current frame (R24). -/
  slot : Fin n
deriving DecidableEq, Repr

/-- The state of the BankedMemoryAccessor (R20, R26, R27). -/
structure Accessor where
  /-- `gconf_shadow`, meaningful only while `bank_valid` = 1 (R26). -/
  gconfShadow : Byte
  /-- `bank_valid` (R27). -/
  bankValid : Bool
deriving DecidableEq, Repr

/-- The answers a device's transport will give (R14, R41), oldest first; `none` is a call that never answers (R41,
93 U6). Past the listed answers, the free values of Config answer, `drawn` of each kind counted together (log 1). -/
structure Transport where
  reads : List (Option ReadAnswer)
  writes : List (Option WriteAnswer)
  drawn : Nat
deriving DecidableEq, Repr

/-- One transport call and its answer (R59); `none` is no answer. -/
inductive Call where
  | read (d : Device) (a : RegAddr) (answer : Option ReadAnswer)
  | write (d : Device) (a : RegAddr) (v : Byte) (answer : Option WriteAnswer)
  | sleep (duration : Nat)
deriving DecidableEq, Repr

/-- A key's transition (R73). -/
inductive Transition where
  | down
  | up
deriving DecidableEq, Repr

/-- A KeyEvent (R73). -/
structure KeyEvent where
  key : Key
  transition : Transition
deriving DecidableEq, Repr

/-- The response record (R83). -/
structure Response where
  status : Byte
  count : BitVec 9
  payload : List Byte
  detail : Option TErr
deriving DecidableEq, Repr

/-- What the host can do to the block (R185): present a command word, or assert reset between commands. -/
inductive HostAction where
  | present (w : CmdWord)
  | reset
deriving DecidableEq, Repr

/-- The block is idle, or its command waits for an answer that never comes (R33, R41, 93 U6). -/
inductive Phase where
  | idle
  | unfinished
deriving DecidableEq, Repr

/-- The machine's state. `scanner`, `accessor` and `phase` are the block's own (R20, R33); `trace` and `responses` are
what has been seen at its ports since reset (R59, R83; log 9); `host`, `keyBus` and `memBus` are its inputs to come
(log 1, log 10); `params` is never written (log 2). -/
structure State where
  scanner : Scanner Config.slots
  accessor : Accessor
  phase : Phase
  /-- The transport calls since reset, oldest first. -/
  trace : List Call
  /-- The responses since reset, oldest first. -/
  responses : List Response
  /-- What the host does next, first action first. -/
  host : List HostAction
  /-- The KEY transport. -/
  keyBus : Transport
  /-- The MEM transport. -/
  memBus : Transport
  params : Params
  /-- How many unspecified shadow values have been drawn (log 7). -/
  shadowDraws : Nat
deriving DecidableEq, Repr

/-- What the block finds at its command port and reset signal when idle (R80, R185): nothing, reset, or a word; with the
state in which that action has been taken. -/
inductive Fetched where
  | nothing
  | reset (s : State)
  | word (w : CmdWord) (s : State)
deriving DecidableEq, Repr

/-- A command in execution: it goes on with a result, or it has ended (an error response sent, or no answer). -/
inductive Progress (α : Type) where
  | going (a : α) (s : State)
  | ended (s : State)
deriving DecidableEq, Repr

/-- Why the machine stops. -/
inductive Fault where
  /-- Raised by `step` when the command in execution waits for a transport call that never answers: "the model has no
  step for the block until the answer comes" (R41; 93 U6, treatment stuck). Safe: the block makes no further step. -/
  | transportSilent
deriving DecidableEq, Repr

/-- Why an instruction has no meaning. -/
inductive Refusal where
  /-- Raised by `exec` for an instruction not modelled yet; no arm raises it in this model. Safe. -/
  | notModelled (mnemonic : String)
deriving DecidableEq, Repr

/-- The scanner after reset: all zero (R21 to R24, R200). -/
def Scanner.reset : Scanner Config.slots :=
  { hist := Vector.replicate Config.slots 0#64, stable := 0#64, row := 0, slot := 0 }

/-- The accessor after reset: `bank_valid` = 0 (R27, R200); `gconf_shadow`, unspecified, 0 by DESIGN CHOICE (log 6). -/
def Accessor.reset : Accessor := { gconfShadow := 0x00#8, bankValid := false }

/-- A transport with no answer listed (log 1). -/
def Transport.unlisted : Transport := { reads := [], writes := [], drawn := 0 }

/-- The machine right after reset (R200), nothing yet asked of it. -/
def State.reset : State :=
  { scanner := Scanner.reset
    accessor := Accessor.reset
    phase := .idle
    trace := []
    responses := []
    host := []
    keyBus := Transport.unlisted
    memBus := Transport.unlisted
    params := Config.params
    shadowDraws := 0 }

end Sys2Proof.Machine
end

