-- ==== Sys2Proof/Machine/Operands.lean ====
section
/-! DEFINITION. Machine/Operands: the data encodings the commands use (30_encoding.md Part 1), the address translation
(20_memory.md R46, R47), the bank-select bit (10_state.md R28) and the parameters of R7. -/

namespace Sys2Proof

/-! ### Parameters (R7) -/

/-- COL_IN_ADDR. -/
def Params.colInAddr (p : Params) : RegAddr := p.colIn

/-- ROW_OUT_ADDR, which differs from COL_IN_ADDR. -/
def Params.rowOutAddr (p : Params) : RegAddr := p.colIn + 1#8 + BitVec.ofNat 8 p.rowOutGap.val

/-- GCONF_ADDR, which is not in 0x80..0xFF. -/
def Params.gconfAddr (p : Params) : RegAddr := p.gconfLow.setWidth 8

/-- T_EEPROM_SETTLE, above 0. -/
def Params.tEepromSettle (p : Params) : Nat := p.eepromSettlePred + 1

/-- T_SWITCH_SETTLE. -/
def Params.tSwitchSettle (p : Params) : Nat := p.switchSettle

/-! ### The bank-select bit (R28) -/

/-- The bit value that selects bank `b`: `bitval(b)`; its own inverse, so also the bank a bit value selects (R28). -/
def Params.bitVal (p : Params) (b : Bank) : Bool :=
  match p.polarity with
  | .direct => b
  | .inverted => !b

/-- `bank_of(g)` (R28). -/
def Params.bankOf (p : Params) (g : Byte) : Bank := p.bitVal (g.getLsbD p.bankBit.val)

/-- `with_bank(g, b) = (g & ~_8(1 << BANK_BIT)) | (bitval(b) << BANK_BIT)` (R28, R75). -/
def Params.withBank (p : Params) (g : Byte) (b : Bank) : Byte :=
  (g &&& ~~~(1#8 <<< p.bankBit.val)) ||| ((BitVec.ofBool (p.bitVal b)).setWidth 8 <<< p.bankBit.val)

/-! ### Translation (R46, R47, R74) -/

/-- `tb(a) = a[7]`, the target bank (R46). -/
def targetBank (a : LogicalAddr) : Bank := a.getLsbD 7

/-- `off(a) = a & 0x7F`, the in-bank offset (R46). -/
def bankOffset (a : LogicalAddr) : RegAddr := a &&& 0x7F#8

/-- `phys(a) = 0x80 + off(a)`, with EEPROM_WINDOW_BASE = 0x80 (R47). -/
def physAddr (a : LogicalAddr) : RegAddr := 0x80#8 + bankOffset a

/-- `base + length > 256`, "computed without wrap-around in 17 bits" (R134). -/
def outOfRange (base : LogicalAddr) (length : BitVec 16) : Bool :=
  decide (256#17 < base.setWidth 17 + length.setWidth 17)

/-- The logical addresses a block read visits, in order: base, base + 1, ... (R136). -/
def blockAddrs (base : LogicalAddr) : Nat → List LogicalAddr
  | 0 => []
  | n + 1 => base :: blockAddrs (base + 1#8) n

/-! ### Keys, columns and rows (R70 to R72) -/

/-- The pressed mask `p = ~_8(c)` of a column byte (R71, R105). -/
def pressedMask (c : Byte) : Byte := ~~~c

/-- `rowsel(r) = ~_8(1 << r)` (R72). -/
def rowSelect (r : Row) : Byte := ~~~(1#8 <<< r.val)

/-- Bits `8*r+7 : 8*r` of a snapshot (R43). -/
def rowByte (v : Snapshot) (r : Row) : Byte := v.extractLsb' (r.val * 8) 8

/-- A snapshot with bits `8*r+7 : 8*r` replaced by `p` (R106): `(v & ~_64(0xFF << sh)) | (zext_64(p) << sh)`. -/
def putRowByte (v : Snapshot) (r : Row) (p : Byte) : Snapshot :=
  (v &&& ~~~(0xFF#64 <<< (r.val * 8))) ||| (p.setWidth 64 <<< (r.val * 8))

end Sys2Proof
end

