-- ==== Sys2Proof/Machine/Flags.lean ====
section
/-! DEFINITION. Machine/Flags: the block has no condition codes and no status flags (R29). What a command reports is its
response: the status codes and records of R83, and the event byte of R84. -/

namespace Sys2Proof.Machine

/-- Status 0x00: the command completed, with its payload (R83). -/
def Response.ok (payload : List Byte) : Response :=
  { status := 0x00#8, count := BitVec.ofNat 9 payload.length, payload := payload, detail := none }

/-- Status 0x01: `detail` is the transport's error unchanged (R83, R170). -/
def Response.transportError (e : TErr) : Response :=
  { status := 0x01#8, count := 0#9, payload := [], detail := some e }

/-- Status 0x02 (R83, R173). -/
def Response.rangeError : Response := { status := 0x02#8, count := 0#9, payload := [], detail := none }

/-- Status 0x03 (R83, R172). -/
def Response.illegalCommand : Response := { status := 0x03#8, count := 0#9, payload := [], detail := none }

/-- The byte of a KeyEvent: bit 7 = 0, bit 6 = 1 for Down, bits 5:0 = key (R84). -/
def KeyEvent.byte (ev : KeyEvent) : Byte :=
  match ev.transition with
  | .down => 0x40#8 ||| BitVec.ofNat 8 ev.key.val
  | .up => BitVec.ofNat 8 ev.key.val

end Sys2Proof.Machine
end

