-- ==== Sys2Proof/Machine/Ops.lean ====
section
/-! DEFINITION. Machine/Ops: the pseudocode primitives of R13 over the state: transport calls, `Sleep`, `raise`,
`return`; what the block does at its ports; reset (R200). An error is this hardware's exception (60_exceptions.md):
raising one is `memRead` and `memWrite` ending with a response, the same in every command, and there is no return from it
(R177). -/

namespace Sys2Proof.Machine

/-! ### Sequencing inside a command -/

/-- Go on with the rest of the command, unless it has ended (R13: `raise` ends the command at once). -/
def Progress.andThen {α β : Type} (m : Progress α) (rest : α → State → Progress β) : Progress β :=
  match m with
  | .going a s => rest a s
  | .ended s => .ended s

/-! ### The ports -/

/-- Send a response (R83). -/
def State.respond (s : State) (r : Response) : State := { s with responses := s.responses ++ [r] }

/-- Record a transport call in the trace (R59). -/
def State.record (s : State) (c : Call) : State := { s with trace := s.trace ++ [c] }

/-- The command waits for an answer that never comes: it stays unfinished (R41, 93 U6). -/
def State.hang (s : State) : State := { s with phase := .unfinished }

/-! ### The transports (R14, R41) -/

/-- The answer to the next read: the first listed one, else a free value (log 1). -/
def Transport.nextRead (d : Device) (t : Transport) : Option ReadAnswer :=
  match t.reads with
  | a :: _ => a
  | [] => some (Config.freeRead d t.drawn)

/-- The transport when that answer is taken. -/
def Transport.afterRead (t : Transport) : Transport :=
  match t.reads with
  | _ :: rest => { t with reads := rest }
  | [] => { t with drawn := t.drawn + 1 }

/-- The answer to the next write: the first listed one, else a free value (log 1). -/
def Transport.nextWrite (d : Device) (t : Transport) : Option WriteAnswer :=
  match t.writes with
  | a :: _ => a
  | [] => some (Config.freeWrite d t.drawn)

/-- The transport when that answer is taken. -/
def Transport.afterWrite (t : Transport) : Transport :=
  match t.writes with
  | _ :: rest => { t with writes := rest }
  | [] => { t with drawn := t.drawn + 1 }

/-- The transport of a device (D15). -/
def State.bus (s : State) (d : Device) : Transport :=
  match d with
  | .key => s.keyBus
  | .mem => s.memBus

/-- The state with a device's transport replaced. -/
def State.setBus (s : State) (d : Device) (t : Transport) : State :=
  match d with
  | .key => { s with keyBus := t }
  | .mem => { s with memBus := t }

/-- The state when a read of register `a` on device `d` has been issued and its answer, if any, has come. -/
def State.readDone (s : State) (d : Device) (a : RegAddr) : State :=
  (s.setBus d (s.bus d).afterRead).record (.read d a ((s.bus d).nextRead d))

/-- The state when a write of `v` to register `a` on device `d` has been issued and its answer, if any, has come. -/
def State.writeDone (s : State) (d : Device) (a : RegAddr) (v : Byte) : State :=
  (s.setBus d (s.bus d).afterWrite).record (.write d a v ((s.bus d).nextWrite d))

/-- `MemRead(d, a, 1)`, "on error(e): raise TransportError(e)" (R13). -/
def State.memRead (s : State) (d : Device) (a : RegAddr) : Progress Byte :=
  match (s.bus d).nextRead d with
  | some (.byte v) => .going v (s.readDone d a)
  | some (.error e) => .ended ((s.readDone d a).respond (.transportError e))
  | none => .ended (s.readDone d a).hang

/-- `MemWrite(d, a, 1, v)`, "on error(e): raise TransportError(e)" (R13). -/
def State.memWrite (s : State) (d : Device) (a : RegAddr) (v : Byte) : Progress Unit :=
  match (s.bus d).nextWrite d with
  | some .ok => .going () (s.writeDone d a v)
  | some (.error e) => .ended ((s.writeDone d a v).respond (.transportError e))
  | none => .ended (s.writeDone d a v).hang

/-- `Sleep(d)`, which cannot fail (R13, R181). -/
def State.sleep (s : State) (duration : Nat) : State := s.record (.sleep duration)

/-- `return Ok(xs)` for a command that got to its end; a command that has ended has sent what it sends (R13, R83). -/
def Progress.finish (m : Progress (List Byte)) : State :=
  match m with
  | .going payload s => s.respond (.ok payload)
  | .ended s => s

/-! ### The command port and reset -/

/-- What the idle block finds at its command port and reset signal (R80, R185). -/
def State.fetch (s : State) : Fetched :=
  match s.host with
  | [] => .nothing
  | .reset :: rest => .reset { s with host := rest }
  | .present w :: rest => .word w { s with host := rest }

/-- Reset (R200): the state elements take their reset values and what has been seen since reset starts afresh (log 9);
no transport call is made, and the host, the transports and the parameters are not the block's to change (R201). -/
def State.resetBlock (s : State) : State :=
  { s with scanner := Scanner.reset, accessor := Accessor.reset, phase := .idle, trace := [], responses := [] }

/-- A word that is no command: IllegalCommand, no transport call, no state element changed (R82, R172). -/
def State.refuseWord (s : State) : State := s.respond .illegalCommand

end Sys2Proof.Machine
end

