-- ==== Sys2Proof/Machine/BankedMemory.lean ====
section
/-! DEFINITION. Machine/BankedMemory: the READBLOCK and INVALIDATE commands (41_banked_memory.md). -/

namespace Sys2Proof.Machine

/-- Lazy initialisation: when `bank_valid` = 0, read the general configuration register once and cache it (R135). -/
def State.lazyInit (s : State) : Progress Unit :=
  match s.accessor.bankValid with
  | true => .going () s
  | false =>
    (s.memRead .mem s.params.gconfAddr).andThen fun g s1 =>
      .going () { s1 with accessor := { gconfShadow := g, bankValid := true } }

/-- The bank-select write and its settle delay, when the wanted bank is not the shadow's (R137, R139). -/
def State.selectBank (s : State) (b : Bank) : Progress Unit :=
  if b = s.params.bankOf s.accessor.gconfShadow then .going () s
  else
    let g := s.params.withBank s.accessor.gconfShadow b
    (s.memWrite .mem s.params.gconfAddr g).andThen fun _ s1 =>
      .going () (State.sleep { s1 with accessor := { s1.accessor with gconfShadow := g } } s.params.tSwitchSettle)

/-- The byte read at `phys(a)` and its settle delay (R138). -/
def State.readWindow (s : State) (a : LogicalAddr) : Progress Byte :=
  (s.memRead .mem (physAddr a)).andThen fun v s1 => .going v (s1.sleep s.params.tEepromSettle)

/-- One iteration of the loop of R132, at logical address `a`. -/
def State.readLogical (s : State) (a : LogicalAddr) : Progress Byte :=
  (s.selectBank (targetBank a)).andThen fun _ s1 => s1.readWindow a

/-- The loop of R132 over the addresses still to read; the bytes in address order (R136). -/
def readAddrs : List LogicalAddr → State → Progress (List Byte)
  | [], s => .going [] s
  | a :: rest, s =>
    (s.readLogical a).andThen fun v s1 =>
      (readAddrs rest s1).andThen fun vs s2 => .going (v :: vs) s2

/-- `READBLOCK base, length` to its response (R132): zero length (R133), range check (R134), initialisation, loop. -/
def readBlock (base : LogicalAddr) (length : BitVec 16) (s : State) : State :=
  if length = 0#16 then s.respond (.ok [])
  else if outOfRange base length then s.respond .rangeError
  else (s.lazyInit.andThen fun _ s1 => readAddrs (blockAddrs base length.toNat) s1).finish

/-- `READBLOCK` (R130 to R139, R141, R142). -/
def execReadblock (base : LogicalAddr) (length : BitVec 16) (s : State) : Host.Outcome State Fault Refusal :=
  .next (readBlock base length s)

/-- `bank_valid <- 0`, and "`gconf_shadow` becomes unspecified": a free value (R140, log 7). When `bank_valid` is already
0 the shadow is unspecified already and nothing changes (R140). -/
def State.dropShadow (s : State) : State :=
  match s.accessor.bankValid with
  | true =>
    { s with
      accessor := { gconfShadow := Config.freeShadow s.shadowDraws, bankValid := false }
      shadowDraws := s.shadowDraws + 1 }
  | false => s

/-- `INVALIDATE` (R140). -/
def execInvalidate (s : State) : Host.Outcome State Fault Refusal := .next (s.dropShadow.respond (.ok []))

end Sys2Proof.Machine
end

