-- ==== Sys2Proof/Machine/EdgeEncoder.lean ====
section
/-! DEFINITION. Machine/EdgeEncoder: the ENCODE micro-operation (42_edge_encoder.md). -/

namespace Sys2Proof.Machine

/-- `lowest_set(w)`: the least i with `w[i] = 1` (R11); none when w = 0. -/
def lowestSet (w : Snapshot) : Option Key := (List.finRange 64).find? fun i => w.getLsbD i.val

/-- The loop of R160 on the working copy `w`, at most `fuel` iterations. -/
def encodeLoop : Nat → Snapshot → List Key
  | 0, _ => []
  | fuel + 1, w =>
    match lowestSet w with
    | none => []
    | some i => i :: encodeLoop fuel (w &&& ~~~(1#64 <<< i.val))

/-- `ENCODE(m)` (R160); the loop runs at most 64 times (R161). -/
def encodeMask (m : Snapshot) : List Key := encodeLoop 64 m

end Sys2Proof.Machine
end

