-- ==== Sys2Proof/Machine/KeyScan.lean ====
section
/-! DEFINITION. Machine/KeyScan: the SCAN command (40_keyscan.md), its scanner steps for a ring of any depth n (R6). -/

namespace Sys2Proof.Machine

/-- The voter: the bitwise OR across all ring slots (R107). -/
def voter {n : Nat} (hist : Vector Snapshot n) : Snapshot := hist.toList.foldl (· ||| ·) 0#64

/-- Step 2: file the inverted column byte into byte `row` of `hist[slot]` (R105, R106). -/
def Scanner.fileSample {n : Nat} (sc : Scanner n) (c : Byte) : Scanner n :=
  { sc with hist := sc.hist.set sc.slot.val (putRowByte (sc.hist.get sc.slot) sc.row (pressedMask c)) sc.slot.isLt }

/-- Step 3: the candidate stable state (R107). -/
def Scanner.candidate {n : Nat} (sc : Scanner n) : Snapshot := voter sc.hist

/-- Step 4: bits newly set (R108). -/
def Scanner.downMask {n : Nat} (sc : Scanner n) : Snapshot := sc.candidate &&& ~~~sc.stable

/-- Step 4: bits newly cleared (R108). -/
def Scanner.upMask {n : Nat} (sc : Scanner n) : Snapshot := sc.stable &&& ~~~sc.candidate

/-- The events: all Down in ascending key order, then all Up in ascending key order (R109). -/
def Scanner.events {n : Nat} (sc : Scanner n) : List KeyEvent :=
  (encodeMask sc.downMask).map (⟨·, .down⟩) ++ (encodeMask sc.upMask).map (⟨·, .up⟩)

/-- Step 6: `(row + 1) mod 8` (R111). -/
def Scanner.nextRow {n : Nat} (sc : Scanner n) : Row := sc.row + 1

/-- Step 6: `(slot + 1) mod N` when the row wraps to 0 (R111). -/
def Scanner.nextSlot {n : Nat} (sc : Scanner n) : Fin n :=
  if sc.nextRow = 0 then
    ⟨(sc.slot.val + 1) % n, Nat.mod_lt _ (Nat.lt_of_le_of_lt (Nat.zero_le _) sc.slot.isLt)⟩
  else sc.slot

/-- Steps 5 and 6 committed, after the row-select write answered ok (R103, R110, R111). -/
def Scanner.commit {n : Nat} (sc : Scanner n) : Scanner n :=
  { sc with stable := sc.candidate, row := sc.nextRow, slot := sc.nextSlot }

/-- `SCAN` up to its response (R103): column read, history write, row-select write, commit. -/
def scanBody (s : State) : Progress (List Byte) :=
  (s.memRead .key s.params.colInAddr).andThen fun c s1 =>
    let filed := s1.scanner.fileSample c
    (({ s1 with scanner := filed }).memWrite .key s1.params.rowOutAddr (rowSelect filed.nextRow)).andThen fun _ s2 =>
      .going (filed.events.map KeyEvent.byte) { s2 with scanner := filed.commit }

/-- `SCAN` (R100 to R103, R113, R114). -/
def execScan (s : State) : Host.Outcome State Fault Refusal := .next (scanBody s).finish

end Sys2Proof.Machine
end

