-- ==== Sys2Proof/Machine/Dispatch.lean ====
section
/-! DEFINITION. Machine/Dispatch: one arm per constructor of Instr. -/

namespace Sys2Proof.Machine

def exec (i : Instr) (s : State) : Host.Outcome State Fault Refusal :=
  match i with
  | .scan => Sys2Proof.Machine.execScan s
  | .readblock base length => Sys2Proof.Machine.execReadblock base length s
  | .invalidate => Sys2Proof.Machine.execInvalidate s

end Sys2Proof.Machine
end

