-- ==== Sys2Proof/Machine/Step.lean ====
section
/-! DEFINITION. Machine/Step: one step of the machine is one action of the host (R33, R185). -/

namespace Sys2Proof.Machine

/-- One step: an idle block takes the host's next action, a command word (R80) or reset (R200), and executes it to
completion (R33); with no action it holds its state (R184). A block whose command never got its answer is stuck
(R41, 93 U6). -/
def step (s : State) : Host.Outcome State Fault Refusal :=
  match s.phase with
  | .unfinished => .fault .transportSilent
  | .idle =>
    match s.fetch with
    | .nothing => .next s
    | .reset s1 => .next s1.resetBlock
    | .word w s1 =>
      match decode w with
      | .command i => exec i s1
      | .illegal _ => .next s1.refuseWord

/-- The state in which the idle block finds the given word at its command port, before whatever the host does next
(log 10). -/
def State.withFetchWord (s : State) (nbits w : Nat) : State :=
  { s with phase := .idle, host := .present (tableWord nbits w) :: s.host }

end Sys2Proof.Machine
end

