-- ==== Sys2Proof/Machine/Reference.lean ====
section
/-! DEFINITION. Machine/Reference: the reference devices of 20_memory.md R58, as checks of a list of transport calls. They
are "for tests only, not normative": no step uses them, and a claim that names one takes it as a hypothesis (log 16). -/

namespace Sys2Proof.Machine

/-- The address in `E[0..255]` of offset `a - 0x80` of the window when bank `b` is mapped: `128 * b + o` (R58). -/
def windowCell (b : Bank) (a : RegAddr) : LogicalAddr := BitVec.ofBool b ++ a.extractLsb' 0 7

/-- One call as the reference MEM device with memory `E` answers it when its register holds `g`: the register's value
after the call, or none when the answer is not the device's. A call that answers an error changes nothing; registers R58
does not name answer anything. -/
def refMemCall (p : Params) (E : LogicalAddr → Byte) (g : Byte) : Call → Option Byte
  | .read .mem a (some (.byte v)) =>
    if a = p.gconfAddr then (if v = g then some g else none)
    else if a.getLsbD 7 then (if v = E (windowCell (p.bankOf g) a) then some g else none)
    else some g
  | .write .mem a v (some .ok) => if a = p.gconfAddr then some v else some g
  | .read .mem _ (some (.error _)) => some g
  | .read .mem _ none => some g
  | .write .mem _ _ (some (.error _)) => some g
  | .write .mem _ _ none => some g
  | .read .key _ _ => some g
  | .write .key _ _ _ => some g
  | .sleep _ => some g

/-- A list of calls, likewise: the register's value at the end. -/
def refMem (p : Params) (E : LogicalAddr → Byte) (g : Byte) (calls : List Call) : Option Byte :=
  calls.foldlM (refMemCall p E) g

/-- The column byte of the reference KEY device: bit j is 0 exactly when some row r has `row_out[r] = 0` and key `8*r + j`
is closed (R58). PRESUMED by the spec itself (93_implementation_defined.md G1). -/
def refColumns (rowOut : Byte) (closed : Snapshot) : Byte :=
  ~~~((List.finRange 8).foldl (fun acc r => if rowOut.getLsbD r.val then acc else acc ||| rowByte closed r) 0#8)

/-- One call as the reference KEY device answers it while the keys `closed` are closed and `row_out` is `rowOut`. -/
def refKeyCall (p : Params) (closed : Snapshot) (rowOut : Byte) : Call → Option Byte
  | .read .key a (some (.byte v)) =>
    if a = p.colInAddr then (if v = refColumns rowOut closed then some rowOut else none) else some rowOut
  | .write .key a v (some .ok) => if a = p.rowOutAddr then some v else some rowOut
  | .read .key _ (some (.error _)) => some rowOut
  | .read .key _ none => some rowOut
  | .write .key _ _ (some (.error _)) => some rowOut
  | .write .key _ _ none => some rowOut
  | .read .mem _ _ => some rowOut
  | .write .mem _ _ _ => some rowOut
  | .sleep _ => some rowOut

/-- A list of calls, likewise: the row-output register at the end. -/
def refKey (p : Params) (closed : Snapshot) (rowOut : Byte) (calls : List Call) : Option Byte :=
  calls.foldlM (refKeyCall p closed) rowOut

end Sys2Proof.Machine
end

