-- ==== Sys2Proof/Safety.lean ====
section
/-! DEFINITION. Safety: what claims say of a run: the calls a block may make, the response record, what the trace tells,
and the invariants of 10_state.md R34 and 40_keyscan.md R117, R120. -/

namespace Sys2Proof.Machine

/-! ### Calls and responses -/

/-- The calls the block may make (R40, R72, R181): one column read, a one-hot active-low row select, reads of GCONF_ADDR
and of the window, writes of GCONF_ADDR only, the two settle delays. -/
def Call.allowed (p : Params) : Call → Prop
  | .read .key a _ => a = p.colInAddr
  | .write .key a v _ => a = p.rowOutAddr ∧ ∃ r : Row, v = rowSelect r
  | .read .mem a _ => a = p.gconfAddr ∨ 0x80 ≤ a.toNat
  | .write .mem a _ _ => a = p.gconfAddr
  | .sleep d => d = p.tEepromSettle ∨ d = p.tSwitchSettle

/-- The response record is one of R83's: count is the payload's length, at most 256; an error carries no payload; `detail`
is present exactly with status 0x01. -/
def Response.wellFormed (r : Response) : Prop :=
  r.status.toNat ≤ 3 ∧ r.count.toNat = r.payload.length ∧ r.payload.length ≤ 256 ∧
    (r.status ≠ 0x00#8 → r.payload = []) ∧ (r.detail.isSome = true ↔ r.status = 0x01#8)

/-- Every answer a transport has listed is an answer: none of its listed calls stays silent. -/
def Transport.answers (t : Transport) : Prop := none ∉ t.reads ∧ none ∉ t.writes

/-- The block is idle and no listed call of either transport stays silent: the runs in which the oracle answers every call
(R14). -/
def State.responsive (s : State) : Prop := s.phase = .idle ∧ s.keyBus.answers ∧ s.memBus.answers

/-- A SCAN's answers: the column read answers the byte `c`, the row-select write after it answers `w` (R102). -/
def State.scanAnswers (s : State) (c : Byte) (w : Option WriteAnswer) : Prop :=
  s.keyBus.nextRead .key = some (.byte c) ∧ s.keyBus.afterRead.nextWrite .key = w

/-- The shadow a READBLOCK past its range check works with: the valid one, or the byte the initialising read answers
(R135). -/
def State.startShadow (s : State) (g : Byte) : Prop :=
  (s.accessor.bankValid = true ∧ g = s.accessor.gconfShadow) ∨
  (s.accessor.bankValid = false ∧ s.memBus.nextRead .mem = some (.byte g))

/-! ### What the trace tells -/

/-- The call did not answer a byte or ok: it answered an error, or not at all. -/
def Call.failed : Call → Bool
  | .read _ _ (some (.byte _)) => false
  | .write _ _ _ (some .ok) => false
  | .sleep _ => false
  | _ => true

/-- The error a call answered (R13: `error(e)`). -/
def Call.error? : Call → Option TErr
  | .read _ _ (some (.error e)) => some e
  | .write _ _ _ (some (.error e)) => some e
  | _ => none

/-- The call has no answer (R41). -/
def Call.silent : Call → Bool
  | .read _ _ none => true
  | .write _ _ _ none => true
  | _ => false

/-- The call is on the given device's transport. -/
def Call.on (d : Device) : Call → Bool
  | .read d' _ _ => d' == d
  | .write d' _ _ _ => d' == d
  | .sleep _ => false

/-- The call is a delay. -/
def Call.isSleep : Call → Bool
  | .sleep _ => true
  | _ => false

/-- The call reads a byte of the window 0x80..0xFF (R144). -/
def Call.readsWindow : Call → Bool
  | .read .mem a _ => decide (0x80 ≤ a.toNat)
  | _ => false

/-- The call reads GCONF_ADDR (R144). -/
def Call.readsGconf (p : Params) : Call → Bool
  | .read .mem a _ => a == p.gconfAddr
  | _ => false

/-- The call writes GCONF_ADDR (R144). -/
def Call.writesGconf (p : Params) : Call → Bool
  | .write .mem a _ _ => a == p.gconfAddr
  | _ => false

/-- The last value read from or successfully written to GCONF_ADDR (R34 d), the value known before being `acc`. -/
def gconfStep (p : Params) (acc : Option Byte) : Call → Option Byte
  | .read .mem a (some (.byte v)) => if a = p.gconfAddr then some v else acc
  | .write .mem a v (some .ok) => if a = p.gconfAddr then some v else acc
  | _ => acc

/-- The last value the calls read from or successfully wrote to GCONF_ADDR. -/
def lastGconf (p : Params) (calls : List Call) : Option Byte := calls.foldl (gconfStep p) none

/-- Whether the last row-select write succeeded, `acc` being so of the writes before this call (R34 c). -/
def rowWriteStep (acc : Bool) : Call → Bool
  | .write .key _ _ answer => answer == some .ok
  | _ => acc

/-- Whether the last row-select write succeeded; true when there was none (R34 c). -/
def lastRowWriteOk (calls : List Call) : Bool := calls.foldl rowWriteStep true

/-- The values successfully written to the KEY device, oldest first (R120). -/
def rowWrites (calls : List Call) : List Byte :=
  calls.filterMap fun c =>
    match c with
    | .write .key _ v (some .ok) => some v
    | _ => none

/-- A column read that answered leaves its pressed mask pending; the row-select write that answers ok makes it the sample
of a successful SCAN (R117). -/
def sampleStep (acc : Option Byte × List Byte) : Call → Option Byte × List Byte
  | .read .key _ (some (.byte c)) => (some (pressedMask c), acc.2)
  | .write .key _ _ (some .ok) =>
    match acc.1 with
    | some p => (none, acc.2 ++ [p])
    | none => acc
  | _ => acc

/-- The pressed masks sampled by the successful SCANs, oldest first. -/
def samples (calls : List Call) : List Byte := (calls.foldl sampleStep (none, [])).2

/-- The elements of a list whose index is `r` modulo `m`. -/
def every {α : Type} (m r : Nat) (xs : List α) : List α := (xs.zipIdx.filter fun x => x.2 % m == r).map (·.1)

/-- The samples `p_r(1), p_r(2), ...` of row r (R117): the k-th successful SCAN samples row k mod 8. -/
def visits (r : Row) (calls : List Call) : List Byte := every 8 r.val (samples calls)

/-- The last `n` elements of a list, or all of them. -/
def lastN {α : Type} (n : Nat) (xs : List α) : List α := xs.drop (xs.length - n)

/-- The bitwise OR of a list of bytes. -/
def orAll (xs : List Byte) : Byte := xs.foldl (· ||| ·) 0#8

/-! ### Renaming errors (D18: TErr is opaque to the block) -/

/-- A read's answer with its error renamed. -/
def renameRead (f : TErr → TErr) : ReadAnswer → ReadAnswer
  | .byte v => .byte v
  | .error e => .error (f e)

/-- A write's answer with its error renamed. -/
def renameWrite (f : TErr → TErr) : WriteAnswer → WriteAnswer
  | .ok => .ok
  | .error e => .error (f e)

/-- A transport with the errors of its listed answers renamed. -/
def Transport.mapErr (f : TErr → TErr) (t : Transport) : Transport :=
  { t with reads := t.reads.map (·.map (renameRead f)), writes := t.writes.map (·.map (renameWrite f)) }

/-- A call with the error of its answer renamed. -/
def Call.mapErr (f : TErr → TErr) : Call → Call
  | .read d a answer => .read d a (answer.map (renameRead f))
  | .write d a v answer => .write d a v (answer.map (renameWrite f))
  | .sleep duration => .sleep duration

/-- A response with its detail renamed. -/
def Response.mapErr (f : TErr → TErr) (r : Response) : Response := { r with detail := r.detail.map f }

/-- A state with every error in it renamed: in the answers to come, in the trace and in the responses. -/
def State.mapErr (f : TErr → TErr) (s : State) : State :=
  { s with
    keyBus := s.keyBus.mapErr f
    memBus := s.memBus.mapErr f
    trace := s.trace.map (Call.mapErr f)
    responses := s.responses.map (Response.mapErr f) }

/-! ### Invariants -/

/-- R34 (b): outside row `row`, `stable` agrees with the OR of the history. -/
def Scanner.settledRows {n : Nat} (sc : Scanner n) : Prop :=
  ∀ r : Row, r ≠ sc.row → rowByte sc.stable r = rowByte (voter sc.hist) r

/-- R34 (b), (c) and (d); (a) holds by the types of `row` and `slot`. -/
def State.consistent (s : State) : Prop :=
  s.scanner.settledRows ∧
  (lastRowWriteOk s.trace = true → s.scanner.stable = voter s.scanner.hist) ∧
  (s.accessor.bankValid = true → lastGconf s.params s.trace = some s.accessor.gconfShadow)

/-- R120: the k-th successful SCAN since reset has written `rowsel(k mod 8)`, and the cursor is where k SCANs put it
(R25, R111). -/
def State.rowCycle (s : State) : Prop :=
  rowWrites s.trace = (List.range (rowWrites s.trace).length).map (fun k => rowSelect (Fin.ofNat 8 (k + 1))) ∧
  s.scanner.row.val = (rowWrites s.trace).length % 8 ∧
  s.scanner.slot.val = (rowWrites s.trace).length / 8 % Config.slots

/-- R117: byte r of `stable` is the OR of the last N samples of row r, and slot j holds, in byte r, the last visit of row r
stored in it (visit i, counted from 0, is stored in slot i mod N); the byte the next SCAN will overwrite may hold the
sample of a SCAN that failed (R114). -/
def State.debounced (s : State) : Prop :=
  s.scanner.row.val = (samples s.trace).length % 8 ∧
  s.scanner.slot.val = (samples s.trace).length / 8 % Config.slots ∧
  (∀ r : Row, rowByte s.scanner.stable r = orAll (lastN Config.slots (visits r s.trace))) ∧
  ∀ (r : Row) (j : Fin Config.slots), (r = s.scanner.row ∧ j = s.scanner.slot) ∨
    rowByte (s.scanner.hist.get j) r = ((every Config.slots j.val (visits r s.trace)).getLast?).getD 0#8

/-- Every call since reset was one the block may make (R40, R72). -/
def State.traceAllowed (s : State) : Prop := ∀ c ∈ s.trace, c.allowed s.params

/-- Every response since reset was one of R83's. -/
def State.responsesWellFormed (s : State) : Prop := ∀ r ∈ s.responses, r.wellFormed

end Sys2Proof.Machine
end

