-- ==== Sys2Proof/Certificates/Slice0/Obligations.lean ====
section
/-! DEFINITION. Obligations: the statements for the provers. Each docstring names the rule of spec/ it formalises. -/

open Sys2Proof Sys2Proof.Machine

/-! ### Encoding -/

/-- Every word of R87's examples and of 95_test_vectors.md V-D decodes as listed there. -/
def Obligations.CommandWordsDecode : Prop :=
  decode 0x10000000#32 = .command .scan ∧
  decode 0x30000000#32 = .command .invalidate ∧
  decode 0x20001478#32 = .command (.readblock 120#8 20#16) ∧
  decode 0x20000AC8#32 = .command (.readblock 200#8 10#16) ∧
  decode 0x20000A00#32 = .command (.readblock 0#8 10#16) ∧
  decode 0x20000000#32 = .command (.readblock 0#8 0#16) ∧
  decode 0x20010000#32 = .command (.readblock 0#8 256#16) ∧
  decode 0x200001FF#32 = .command (.readblock 255#8 1#16) ∧
  decode 0x20000007#32 = .command (.readblock 7#8 0#16) ∧
  decode 0x20FFFFFF#32 = .command (.readblock 255#8 65535#16) ∧
  decode 0x10000001#32 = .illegal .formatZNonzero ∧
  decode 0x30000100#32 = .illegal .formatZNonzero ∧
  decode 0x21001478#32 = .illegal .formatBNonzero ∧
  decode 0x00000000#32 = .illegal .reservedOp ∧
  decode 0x40000000#32 = .illegal .reservedOp ∧
  decode 0xFFFFFFFF#32 = .illegal .reservedOp

/-- Decoding an instruction's word gives it back, whatever its operands (R80, R81, R85, R131). -/
def Obligations.DecodeReadsEncode : Prop :=
  ∀ i : Instr, decode (encode i) = .command i

/-- A word that decodes is the word of what it decodes to: no bit of it is dropped (R80, R81, R85). -/
def Obligations.EncodeRestoresWord : Prop :=
  ∀ (w : CmdWord) (i : Instr), decode w = .command i → encode i = w

/-- R82, R172: exactly the words that match no row are illegal, they are the four classes of R82, and the block answers one
with status 0x03 and count 0, making no transport call and changing no state element. -/
def Obligations.IllegalWordsRefused : Prop :=
  ∀ w : CmdWord,
    ((∃ why, decode w = .illegal why) ↔ CmdWord.wellFormed w = false) ∧
    (CmdWord.wellFormed w = false ↔
      opField w = 0x0#4 ∨ 4 ≤ (opField w).toNat ∨
      ((opField w = 0x1#4 ∨ opField w = 0x3#4) ∧ w.extractLsb' 0 28 ≠ 0#28) ∨
      (opField w = 0x2#4 ∧ w.extractLsb' 24 4 ≠ 0#4)) ∧
    ∀ (s : State) (rest : List HostAction), s.phase = .idle → s.host = .present w :: rest →
      CmdWord.wellFormed w = false →
      step s = .next { s with
        host := rest
        responses := s.responses ++ [{ status := 0x03#8, count := 0#9, payload := [], detail := none }] }

/-- R84: bit 7 = 0, bit 6 = 1 for Down and 0 for Up, bits 5:0 = key. -/
def Obligations.EventByteFields : Prop :=
  ∀ ev : KeyEvent,
    ev.byte.getLsbD 7 = false ∧
    (ev.byte.getLsbD 6 = true ↔ ev.transition = .down) ∧
    (ev.byte.extractLsb' 0 6).toNat = ev.key.val

/-- R71, R72: the pressed mask inverts the column byte; the row-select byte of row r is all ones except bit r. -/
def Obligations.ColumnAndRowEncodings : Prop :=
  (∀ (c : Byte) (j : Nat), j < 8 → (pressedMask c).getLsbD j = !c.getLsbD j) ∧
  (∀ (r : Row) (j : Nat), j < 8 → ((rowSelect r).getLsbD j = false ↔ j = r.val)) ∧
  (List.finRange 8).map rowSelect = [0xFE#8, 0xFD#8, 0xFB#8, 0xF7#8, 0xEF#8, 0xDF#8, 0xBF#8, 0x7F#8]

/-- R46, R47: target bank, in-bank offset and physical address of every logical address; `a` and `a + 128` share a
physical address, which lies in the window. -/
def Obligations.TranslationOfEveryAddress : Prop :=
  ∀ a : LogicalAddr,
    targetBank a = decide (128 ≤ a.toNat) ∧
    (bankOffset a).toNat = a.toNat % 128 ∧
    (physAddr a).toNat = 0x80 + a.toNat % 128 ∧
    physAddr (a + 128#8) = physAddr a ∧ 0x80 ≤ (physAddr a).toNat

/-- R28: the bank a register value selects is bit BANK_BIT when the polarity is direct and its inverse when it is
inverted; `bank_of(with_bank(g, b)) = b`; and `with_bank(g, b)` has bit BANK_BIT equal to `b` when direct and to its inverse
when inverted, and equals `g` in every other bit. -/
def Obligations.BankSelectKeepsOtherBits : Prop :=
  ∀ (p : Params) (g : Byte) (b : Bank),
    (p.polarity = .direct →
      p.bankOf g = g.getLsbD p.bankBit.val ∧ (p.withBank g b).getLsbD p.bankBit.val = b) ∧
    (p.polarity = .inverted →
      p.bankOf g = !g.getLsbD p.bankBit.val ∧ (p.withBank g b).getLsbD p.bankBit.val = !b) ∧
    p.bankOf (p.withBank g b) = b ∧
    ∀ i : Nat, i < 8 → i ≠ p.bankBit.val → (p.withBank g b).getLsbD i = g.getLsbD i

/-- R7: the constraints on the parameters hold of every `Params`, and every choice that meets them is one. -/
def Obligations.ParameterConstraints : Prop :=
  (∀ p : Params, p.colInAddr ≠ p.rowOutAddr ∧ p.gconfAddr.toNat < 0x80 ∧ 0 < p.tEepromSettle) ∧
  ∀ (colIn rowOut gconf : RegAddr) (bit : Fin 8) (polarity : Polarity) (te ts : Nat),
    colIn ≠ rowOut → gconf.toNat < 0x80 → 0 < te →
    ∃ p : Params, p.colInAddr = colIn ∧ p.rowOutAddr = rowOut ∧ p.gconfAddr = gconf ∧ p.bankBit = bit ∧
      p.polarity = polarity ∧ p.tEepromSettle = te ∧ p.tSwitchSettle = ts

/-! ### The machine's step -/

/-- A word on the command port that decodes to a command runs that command, the word taken from the port (R33, R80); and
the word `withFetchWord` places runs as `decodeTableWord` reads it. -/
def Obligations.StepRunsDecodedCommand : Prop :=
  (∀ (s : State) (w : CmdWord) (i : Instr) (rest : List HostAction),
    s.phase = .idle → s.host = .present w :: rest → decode w = .command i →
    step s = exec i { s with host := rest }) ∧
  ∀ (s : State) (nbits w : Nat) (i : Instr), decodeTableWord nbits w = some i →
    step (s.withFetchWord nbits w) = exec i { s with phase := .idle }

/-- An idle block with nothing asked of it holds its state (R184); a block whose command got no answer takes no further
step (R41, 93_implementation_defined.md U6). That the first is a step and the second a fault is the model's choice
(log 10, log 11). -/
def Obligations.IdleHoldsUnfinishedStops : Prop :=
  (∀ s : State, s.phase = .idle → s.host = [] → step s = .next s) ∧
  ∀ s : State, s.phase = .unfinished → step s = .fault .transportSilent

/-- R200, R201: `State.reset` and the state after the reset signal: the scanner zero, `bank_valid` 0, idle, no transport
call made, and nothing of the transports or the parameters touched. That the trace starts afresh is the model's choice
(log 9); the value of `gconf_shadow` is left unsaid. -/
def Obligations.ResetZeroesTheBlock : Prop :=
  (∀ j : Fin Config.slots, State.reset.scanner.hist.get j = 0#64) ∧ State.reset.scanner.stable = 0#64 ∧
  State.reset.scanner.row = 0 ∧ State.reset.scanner.slot = 0 ∧ State.reset.accessor.bankValid = false ∧
  State.reset.phase = .idle ∧ State.reset.trace = [] ∧
  ∀ (s : State) (rest : List HostAction), s.phase = .idle → s.host = .reset :: rest →
    ∃ t, step s = .next t ∧
      (∀ j : Fin Config.slots, t.scanner.hist.get j = 0#64) ∧ t.scanner.stable = 0#64 ∧
      t.scanner.row = 0 ∧ t.scanner.slot = 0 ∧ t.accessor.bankValid = false ∧ t.phase = .idle ∧ t.trace = [] ∧
      t.keyBus = s.keyBus ∧ t.memBus = s.memBus ∧ t.params = s.params ∧ t.host = rest

/-- R14: while every listed call is answered, the machine has a next step and stays so, whatever the answers are. That the
answers are listed in the state and continued by a free value is the model's choice (log 1). -/
def Obligations.AnsweredRunsNeverStop : Prop :=
  ∀ s : State, s.responsive → ∃ t, step s = .next t ∧ t.responsive

/-- R83: every command word accepted gets exactly one response, a record of R83's form, unless a transport call is never
answered (R41). -/
def Obligations.OneResponsePerCommand : Prop :=
  ∀ (s t : State) (w : CmdWord) (rest : List HostAction),
    s.phase = .idle → s.host = .present w :: rest → step s = .next t → t.phase = .idle →
    t.host = rest ∧ ∃ r : Response, r.wellFormed ∧ t.responses = s.responses ++ [r]

/-- R41: a transport that never answers leaves the command unfinished: no response, the unanswered call the last one, and
no step from there. That the stuck state is a state of its own and its step a fault is the model's choice (log 11). -/
def Obligations.SilentTransportLeavesUnfinished : Prop :=
  ∀ (i : Instr) (s t : State), s.phase = .idle → exec i s = .next t → t.phase = .unfinished →
    t.responses = s.responses ∧ step t = .fault .transportSilent ∧
    ∃ calls last, t.trace = s.trace ++ calls ++ [last] ∧ last.silent = true ∧ ∀ c ∈ calls, c.failed = false

/-- R175, R176, R171, R141: a command that answers with status 0 had no failed call; one that answers an error had either
none at all (RangeError, nothing changed but the response) or exactly one, the last, whose error the response carries. -/
def Obligations.ErrorsEndTheCommandPrecisely : Prop :=
  ∀ (i : Instr) (s t : State) (r : Response), exec i s = .next t → t.responses = s.responses ++ [r] →
    (r.status = 0x00#8 ∧ ∃ calls, t.trace = s.trace ++ calls ∧ ∀ c ∈ calls, c.failed = false) ∨
    (r = .rangeError ∧ t = { s with responses := s.responses ++ [r] }) ∨
    ∃ e calls last, r = .transportError e ∧ t.trace = s.trace ++ calls ++ [last] ∧ last.error? = some e ∧
      ∀ c ∈ calls, c.failed = false

/-- R100, R130, R140, R20: what each command leaves untouched, on every path, and the transport its calls are on. -/
def Obligations.CommandFrames : Prop :=
  ∀ s t : State,
    (exec .scan s = .next t →
      t.accessor = s.accessor ∧ t.memBus = s.memBus ∧ t.params = s.params ∧ t.host = s.host ∧
      t.shadowDraws = s.shadowDraws ∧
      ∃ calls, t.trace = s.trace ++ calls ∧ calls.length ≤ 2 ∧ ∀ c ∈ calls, c.on .key = true) ∧
    (∀ base length, exec (.readblock base length) s = .next t →
      t.scanner = s.scanner ∧ t.keyBus = s.keyBus ∧ t.params = s.params ∧ t.host = s.host ∧
      t.shadowDraws = s.shadowDraws ∧
      ∃ calls, t.trace = s.trace ++ calls ∧ ∀ c ∈ calls, c.on .mem = true ∨ c.isSleep = true) ∧
    (exec .invalidate s = .next t →
      t.scanner = s.scanner ∧ t.phase = s.phase ∧ t.keyBus = s.keyBus ∧ t.memBus = s.memBus ∧ t.params = s.params ∧
      t.host = s.host ∧ t.trace = s.trace)

/-- R20: "The two components share no state": a SCAN and a command of the accessor may change places. -/
def Obligations.ScannerAndAccessorCommute : Prop :=
  ∀ (i : Instr) (s a b c d : State), i ≠ .scan →
    exec .scan s = .next a → exec i a = .next b → exec i s = .next c → exec .scan c = .next d →
    b.scanner = d.scanner ∧ b.accessor = d.accessor ∧ b.phase = d.phase ∧ b.keyBus = d.keyBus ∧
    b.memBus = d.memBus ∧ b.params = d.params ∧ b.host = d.host ∧ b.shadowDraws = d.shadowDraws

/-- R26, 93_implementation_defined.md V2: while `bank_valid` = 0 no behaviour depends on `gconf_shadow`. -/
def Obligations.InvalidShadowUnobservable : Prop :=
  ∀ (i : Instr) (s t t' : State) (g : Byte), s.accessor.bankValid = false →
    exec i s = .next t → exec i { s with accessor := { gconfShadow := g, bankValid := false } } = .next t' →
    t'.scanner = t.scanner ∧ t'.phase = t.phase ∧ t'.trace = t.trace ∧ t'.responses = t.responses ∧
    t'.host = t.host ∧ t'.keyBus = t.keyBus ∧ t'.memBus = t.memBus ∧ t'.params = t.params ∧
    t'.shadowDraws = t.shadowDraws ∧ t'.accessor.bankValid = t.accessor.bankValid ∧
    (t.accessor.bankValid = true → t'.accessor = t.accessor)

/-- R21 to R24, R26, R27, R135: what can change a state element in one step of the machine. The scanner changes only by
reset or the SCAN word, and of it `stable`, `row` and `slot` only by a SCAN that succeeds; `bank_valid` falls only by reset
or the INVALIDATE word, and rises only by a READBLOCK word whose initialising read answers a byte. -/
def Obligations.StateChangesOnlyWhereTheRulesSay : Prop :=
  ∀ s t : State, step s = .next t →
    (t.scanner ≠ s.scanner → ∃ rest, s.host = .reset :: rest ∨ s.host = .present 0x10000000#32 :: rest) ∧
    ((t.scanner.stable ≠ s.scanner.stable ∨ t.scanner.row ≠ s.scanner.row ∨ t.scanner.slot ≠ s.scanner.slot) →
      ∃ rest, s.host = .reset :: rest ∨
        (s.host = .present 0x10000000#32 :: rest ∧ ∃ c, s.scanAnswers c (some .ok))) ∧
    (s.accessor.bankValid = true → t.accessor.bankValid = false →
      ∃ rest, s.host = .reset :: rest ∨ s.host = .present 0x30000000#32 :: rest) ∧
    (s.accessor.bankValid = false → t.accessor.bankValid = true →
      ∃ base length g rest, s.host = .present (encode (.readblock base length)) :: rest ∧
        s.memBus.nextRead .mem = some (.byte g))

/-! ### SCAN -/

/-- R103 on the success path, with everything SCAN leaves unchanged: one read of COL_IN_ADDR, one write of ROW_OUT_ADDR
(R102), the sample filed, the scanner committed, the events sent. -/
def Obligations.ScanCompletes : Prop :=
  ∀ (s : State) (c : Byte), s.scanAnswers c (some .ok) →
    exec .scan s = .next { s with
      scanner := (s.scanner.fileSample c).commit
      keyBus := s.keyBus.afterRead.afterWrite
      trace := s.trace ++ [.read .key s.params.colInAddr (some (.byte c)),
        .write .key s.params.rowOutAddr (rowSelect (s.scanner.row + 1)) (some .ok)]
      responses := s.responses ++ [.ok ((s.scanner.fileSample c).events.map KeyEvent.byte)] }

/-- R111, R112: the cursor after a successful SCAN, and the row-select byte it wrote, which names the new row; a SCAN that
does not succeed leaves the cursor where it was. -/
def Obligations.ScanAdvancesCursor : Prop :=
  (∀ (s : State) (c : Byte), s.scanAnswers c (some .ok) →
    ∃ t, exec .scan s = .next t ∧
      t.scanner.row.val = (s.scanner.row.val + 1) % 8 ∧
      t.scanner.slot.val =
        (if t.scanner.row.val = 0 then (s.scanner.slot.val + 1) % Config.slots else s.scanner.slot.val) ∧
      t.trace.getLast? =
        some (.write .key s.params.rowOutAddr (~~~(1#8 <<< t.scanner.row.val)) (some .ok))) ∧
  ∀ s : State, (∀ c, ¬ s.scanAnswers c (some .ok)) →
    ∃ t, exec .scan s = .next t ∧ t.scanner.row = s.scanner.row ∧ t.scanner.slot = s.scanner.slot ∧
      t.scanner.stable = s.scanner.stable

/-- R105, R106: whatever the write answers, byte `row` of `hist[slot]` becomes the inverted column byte and every other
byte of the history is unchanged. -/
def Obligations.ScanFilesTheSample : Prop :=
  ∀ (s : State) (c : Byte) (w : Option WriteAnswer), s.scanAnswers c w →
    ∃ t, exec .scan s = .next t ∧
      ∀ (j : Fin Config.slots) (r : Row),
        rowByte (t.scanner.hist.get j) r =
          if j = s.scanner.slot ∧ r = s.scanner.row then ~~~c else rowByte (s.scanner.hist.get j) r

/-- R107, R110: after a successful SCAN a bit of `stable` is set exactly when it is set in at least one slot of the
history, the sample just taken included. -/
def Obligations.StableIsTheVote : Prop :=
  ∀ (s : State) (c : Byte), s.scanAnswers c (some .ok) →
    ∃ t, exec .scan s = .next t ∧
      ∀ k : Key, t.scanner.stable.getLsbD k.val = true ↔
        ∃ j : Fin Config.slots, (t.scanner.hist.get j).getLsbD k.val = true

/-- R108, R109: the response's events are Down for the bits newly set in `stable`, ascending, then Up for the bits newly
cleared, ascending. -/
def Obligations.ScanReportsTheEdges : Prop :=
  ∀ (s : State) (c : Byte), s.scanAnswers c (some .ok) →
    ∃ t, exec .scan s = .next t ∧
      t.responses = s.responses ++ [.ok
        ((((List.finRange 64).filter fun k : Key =>
              !s.scanner.stable.getLsbD k.val && t.scanner.stable.getLsbD k.val).map
            fun k => KeyEvent.byte ⟨k, .down⟩) ++
          (((List.finRange 64).filter fun k : Key =>
              s.scanner.stable.getLsbD k.val && !t.scanner.stable.getLsbD k.val).map
            fun k => KeyEvent.byte ⟨k, .up⟩))]

/-- R113: a column read that answers an error ends the SCAN with that error; no state element is written and the trace is
the one failed read. -/
def Obligations.ScanReadFailure : Prop :=
  ∀ (s : State) (e : TErr), s.keyBus.nextRead .key = some (.error e) →
    exec .scan s = .next { s with
      keyBus := s.keyBus.afterRead
      trace := s.trace ++ [.read .key s.params.colInAddr (some (.error e))]
      responses := s.responses ++ [.transportError e] }

/-- R114: a row-select write that answers an error leaves the filed sample and nothing else of the scanner changed, and the
next SCAN, if it succeeds with any byte c', does exactly what it would have done had the failed SCAN not been: same
scanner, same events. -/
def Obligations.ScanWriteFailureAndRetry : Prop :=
  ∀ (s : State) (c : Byte) (e : TErr), s.scanAnswers c (some (.error e)) →
    ∃ t, exec .scan s = .next t ∧
      t = { s with
        scanner := { s.scanner with hist := (s.scanner.fileSample c).hist }
        keyBus := s.keyBus.afterRead.afterWrite
        trace := s.trace ++ [.read .key s.params.colInAddr (some (.byte c)),
          .write .key s.params.rowOutAddr (rowSelect (s.scanner.row + 1)) (some (.error e))]
        responses := s.responses ++ [.transportError e] } ∧
      ∀ (c' : Byte) (u v : State), t.scanAnswers c' (some .ok) → exec .scan t = .next u →
        ∀ s0 : State, s0.scanner = s.scanner → s0.scanAnswers c' (some .ok) → exec .scan s0 = .next v →
          u.scanner = v.scanner ∧ u.responses.getLast? = v.responses.getLast?

/-- R118, one SCAN at a time: a key up in `stable` whose column reads low goes Down at once; a key of the row goes Up
exactly when it was down in `stable`, its column reads high and no other slot still holds it. -/
def Obligations.PressAtOnceReleaseWhenHistoryClears : Prop :=
  ∀ (s : State) (c : Byte) (j : Fin 8) (k : Key), s.scanAnswers c (some .ok) → k.val = 8 * s.scanner.row.val + j.val →
    ∃ (t : State) (evs : List KeyEvent), exec .scan s = .next t ∧ t.responses = s.responses ++ [.ok (evs.map KeyEvent.byte)] ∧
      (s.scanner.stable.getLsbD k.val = false → c.getLsbD j.val = false → (⟨k, .down⟩ : KeyEvent) ∈ evs) ∧
      ((⟨k, .up⟩ : KeyEvent) ∈ evs ↔
        s.scanner.stable.getLsbD k.val = true ∧ c.getLsbD j.val = true ∧
          ∀ i : Fin Config.slots, i ≠ s.scanner.slot → (s.scanner.hist.get i).getLsbD k.val = false)

/-- R116: where R34 (b) holds, a SCAN's events are on the sampled row, at most 8, no key twice. -/
def Obligations.EventsConfinedToTheRow : Prop :=
  ∀ (s : State) (c : Byte), s.scanner.settledRows → s.scanAnswers c (some .ok) →
    ∃ (t : State) (evs : List KeyEvent), exec .scan s = .next t ∧ t.responses = s.responses ++ [.ok (evs.map KeyEvent.byte)] ∧
      evs.length ≤ 8 ∧ (evs.map KeyEvent.key).Nodup ∧ ∀ ev ∈ evs, ev.key.val / 8 = s.scanner.row.val

/-- R119: where R34 (b) holds and every slot and `stable` already hold the sample in the row's byte, the SCAN emits nothing
and changes neither. -/
def Obligations.RepeatedSampleEmitsNothing : Prop :=
  ∀ (s : State) (c : Byte), s.scanner.settledRows → s.scanAnswers c (some .ok) →
    (∀ j : Fin Config.slots, rowByte (s.scanner.hist.get j) s.scanner.row = ~~~c) →
    rowByte s.scanner.stable s.scanner.row = ~~~c →
    ∃ t, exec .scan s = .next t ∧ t.responses = s.responses ++ [.ok []] ∧
      t.scanner.hist = s.scanner.hist ∧ t.scanner.stable = s.scanner.stable

/-- R123, the worked example: from reset, a column byte 0xFB and a write that answers ok. -/
def Obligations.ScanWorkedExample : Prop :=
  ∃ t, exec .scan { State.reset with keyBus := { reads := [some (.byte 0xFB#8)], writes := [some .ok], drawn := 0 } }
      = .next t ∧
    t.scanner.hist = #v[0x0000000000000004#64, 0#64] ∧ t.scanner.stable = 0x04#64 ∧ t.scanner.row = 1 ∧
    t.scanner.slot = 0 ∧
    t.trace = [.read .key Config.params.colInAddr (some (.byte 0xFB#8)),
      .write .key Config.params.rowOutAddr 0xFD#8 (some .ok)] ∧
    t.responses = [{ status := 0x00#8, count := 1#9, payload := [0x42#8], detail := none }]

/-- R58's reference KEY device, with R204: while the device selects the block's row, a successful SCAN files exactly the
keys of that row that are closed, and leaves the device selecting the block's new row (R112). -/
def Obligations.ScanSamplesClosedKeys : Prop :=
  ∀ (s t : State) (c : Byte) (closed : Snapshot) (calls : List Call) (rowOut : Byte),
    s.scanAnswers c (some .ok) → exec .scan s = .next t → t.trace = s.trace ++ calls →
    refKey s.params closed (rowSelect s.scanner.row) calls = some rowOut →
    rowByte (t.scanner.hist.get s.scanner.slot) s.scanner.row = rowByte closed s.scanner.row ∧
    rowOut = rowSelect t.scanner.row

/-! ### ENCODE -/

/-- R160, R161: the positions of the set bits, each once, strictly ascending: the sub-list of [0, ..., 63] of those i with
`m[i] = 1`. -/
def Obligations.EncodeListsSetBits : Prop :=
  ∀ m : Snapshot,
    encodeMask m = (List.finRange 64).filter (fun i => m.getLsbD i.val) ∧
    (encodeMask m).Pairwise (· < ·) ∧
    (∀ i : Key, i ∈ encodeMask m ↔ m.getLsbD i.val = true)

/-! ### READBLOCK and INVALIDATE -/

/-- R133: a zero length returns an empty result and does nothing else, for every base. -/
def Obligations.ReadblockZeroLength : Prop :=
  ∀ (s : State) (base : LogicalAddr),
    exec (.readblock base 0#16) s = .next { s with responses := s.responses ++ [.ok []] }

/-- R134: a sum above 256 is RangeError with no transport call and no state change; any other sum is accepted. -/
def Obligations.ReadblockRangeCheck : Prop :=
  ∀ (s : State) (base : LogicalAddr) (length : BitVec 16),
    (256 < base.toNat + length.toNat →
      exec (.readblock base length) s = .next { s with responses := s.responses ++ [.rangeError] }) ∧
    (base.toNat + length.toNat ≤ 256 →
      ∃ t, exec (.readblock base length) s = .next t ∧ t.responses ≠ s.responses ++ [.rangeError])

/-- R135: with `bank_valid` = 0 the general configuration register is read first, once; an error ends the command with
`bank_valid` still 0; a byte is cached, no delay follows that read, and `bank_valid` is 1 from then on. -/
def Obligations.ReadblockInitialisesLazily : Prop :=
  ∀ (s : State) (base : LogicalAddr) (length : BitVec 16), s.accessor.bankValid = false → length ≠ 0#16 →
    base.toNat + length.toNat ≤ 256 →
    (∀ e, s.memBus.nextRead .mem = some (.error e) →
      exec (.readblock base length) s = .next { s with
        memBus := s.memBus.afterRead
        trace := s.trace ++ [.read .mem s.params.gconfAddr (some (.error e))]
        responses := s.responses ++ [.transportError e] }) ∧
    ∀ g, s.memBus.nextRead .mem = some (.byte g) →
      ∃ (t : State) (next : Call) (more : List Call), exec (.readblock base length) s = .next t ∧ t.accessor.bankValid = true ∧
        t.trace = s.trace ++ .read .mem s.params.gconfAddr (some (.byte g)) :: next :: more ∧
        next.isSleep = false ∧ ∀ c ∈ next :: more, c.readsGconf s.params = false

/-- R137, R138, R139, R141, R142, one byte at a time with a valid shadow: no write when the banks agree; else the write of
`with_bank(gconf_shadow, tb)`, the shadow taking it and the switch delay only when it answers ok; then the read of `phys(a)`
and, when it answers a byte, its delay. A read that answers an error ends the command with no delay and no bytes, a switch
before it staying in the shadow; a write that answers an error ends it with the shadow unchanged and no read. -/
def Obligations.ReadblockOneByte : Prop :=
  ∀ (s : State) (a : LogicalAddr), s.accessor.bankValid = true →
    (targetBank a = s.params.bankOf s.accessor.gconfShadow →
      (∀ v, s.memBus.nextRead .mem = some (.byte v) →
        exec (.readblock a 1#16) s = .next { s with
          memBus := s.memBus.afterRead
          trace := s.trace ++ [.read .mem (physAddr a) (some (.byte v)), .sleep s.params.tEepromSettle]
          responses := s.responses ++ [.ok [v]] }) ∧
      ∀ e, s.memBus.nextRead .mem = some (.error e) →
        exec (.readblock a 1#16) s = .next { s with
          memBus := s.memBus.afterRead
          trace := s.trace ++ [.read .mem (physAddr a) (some (.error e))]
          responses := s.responses ++ [.transportError e] }) ∧
    (targetBank a ≠ s.params.bankOf s.accessor.gconfShadow →
      let g := s.params.withBank s.accessor.gconfShadow (targetBank a)
      (∀ v, s.memBus.nextWrite .mem = some .ok → s.memBus.afterWrite.nextRead .mem = some (.byte v) →
        exec (.readblock a 1#16) s = .next { s with
          accessor := { gconfShadow := g, bankValid := true }
          memBus := s.memBus.afterWrite.afterRead
          trace := s.trace ++ [.write .mem s.params.gconfAddr g (some .ok), .sleep s.params.tSwitchSettle,
            .read .mem (physAddr a) (some (.byte v)), .sleep s.params.tEepromSettle]
          responses := s.responses ++ [.ok [v]] }) ∧
      (∀ e, s.memBus.nextWrite .mem = some .ok → s.memBus.afterWrite.nextRead .mem = some (.error e) →
        exec (.readblock a 1#16) s = .next { s with
          accessor := { gconfShadow := g, bankValid := true }
          memBus := s.memBus.afterWrite.afterRead
          trace := s.trace ++ [.write .mem s.params.gconfAddr g (some .ok), .sleep s.params.tSwitchSettle,
            .read .mem (physAddr a) (some (.error e))]
          responses := s.responses ++ [.transportError e] }) ∧
      ∀ e, s.memBus.nextWrite .mem = some (.error e) →
        exec (.readblock a 1#16) s = .next { s with
          memBus := s.memBus.afterWrite
          trace := s.trace ++ [.write .mem s.params.gconfAddr g (some (.error e))]
          responses := s.responses ++ [.transportError e] })

/-- R130, R131, R143: when the transport's next reads answer bytes and its next two writes answer ok, a READBLOCK in range
returns exactly the bytes answered, in order, with count = length, and leaves the shadow valid at the last byte's bank. -/
def Obligations.ReadblockCompletes : Prop :=
  ∀ (s : State) (base : LogicalAddr) (length : BitVec 16) (g : Byte) (vs : List Byte)
    (reads : List (Option ReadAnswer)) (writes : List (Option WriteAnswer)),
    length ≠ 0#16 → base.toNat + length.toNat ≤ 256 → vs.length = length.toNat →
    s.memBus.reads =
      (if s.accessor.bankValid then [] else [some (.byte g)]) ++ vs.map (fun v => some (.byte v)) ++ reads →
    s.memBus.writes = some .ok :: some .ok :: writes →
    ∃ t, exec (.readblock base length) s = .next t ∧
      t.responses = s.responses ++ [.ok vs] ∧ t.phase = s.phase ∧ t.memBus.reads = reads ∧
      t.accessor.bankValid = true ∧
      t.params.bankOf t.accessor.gconfShadow = decide (128 ≤ base.toNat + length.toNat - 1)

/-- R143: after every successful READBLOCK of at least one byte the shadow is valid and at the bank of the last byte. -/
def Obligations.ReadblockLeavesLastBank : Prop :=
  ∀ (s t : State) (base : LogicalAddr) (length : BitVec 16) (vs : List Byte), length ≠ 0#16 →
    base.toNat + length.toNat ≤ 256 → exec (.readblock base length) s = .next t →
    t.responses = s.responses ++ [.ok vs] →
    t.accessor.bankValid = true ∧
    t.params.bankOf t.accessor.gconfShadow = decide (128 ≤ base.toNat + length.toNat - 1)

/-- R136 to R139, R53, R75: the calls of a successful READBLOCK, byte by byte. Before them, the initialising read if
`bank_valid` was 0; `shadow 0` is the shadow then, and `shadow i` the one before byte i. For byte i: no bank-select write
when the bank of `shadow i` is that of `base + i`, else the write of `with_bank(shadow i, tb)`, which the shadow takes, and
its delay; the read at `0x80 + ((base + i) & 0x7F)` answering payload byte i, and its delay. -/
def Obligations.ReadblockReadsInOrder : Prop :=
  ∀ (s t : State) (base : LogicalAddr) (length : BitVec 16) (vs : List Byte), length ≠ 0#16 →
    base.toNat + length.toNat ≤ 256 → exec (.readblock base length) s = .next t →
    t.responses = s.responses ++ [.ok vs] →
    vs.length = length.toNat ∧
    ∃ (init : List Call) (segments : List (List Call)) (shadow : Nat → Byte),
      t.trace = s.trace ++ init ++ segments.flatten ∧ segments.length = length.toNat ∧
      s.startShadow (shadow 0) ∧ t.accessor.gconfShadow = shadow length.toNat ∧
      init = (if s.accessor.bankValid then [] else [.read .mem s.params.gconfAddr (some (.byte (shadow 0)))]) ∧
      ∀ i : Nat, i < length.toNat →
        ∃ (a : RegAddr) (v : Byte) (switch : List Call),
          a.toNat = 0x80 + (base.toNat + i) % 128 ∧ vs[i]? = some v ∧
          (let tb : Bank := decide (128 ≤ base.toNat + i)
           (tb = s.params.bankOf (shadow i) → switch = [] ∧ shadow (i + 1) = shadow i) ∧
           (tb ≠ s.params.bankOf (shadow i) →
             switch = [.write .mem s.params.gconfAddr (s.params.withBank (shadow i) tb) (some .ok),
               .sleep s.params.tSwitchSettle] ∧
             shadow (i + 1) = s.params.withBank (shadow i) tb)) ∧
          segments[i]? = some (switch ++ [.read .mem a (some (.byte v)), .sleep s.params.tEepromSettle])

/-- R144: the counts of a successful READBLOCK, `g` being the shadow after lazy initialisation. -/
def Obligations.ReadblockCounts : Prop :=
  ∀ (s t : State) (base : LogicalAddr) (length : BitVec 16) (vs : List Byte) (calls : List Call) (g : Byte),
    length ≠ 0#16 → base.toNat + length.toNat ≤ 256 → exec (.readblock base length) s = .next t →
    t.responses = s.responses ++ [.ok vs] → t.trace = s.trace ++ calls → s.startShadow g →
    calls.countP Call.readsWindow = length.toNat ∧
    calls.countP (Call.readsGconf s.params) = (if s.accessor.bankValid then 0 else 1) ∧
    calls.countP Call.isSleep = length.toNat + calls.countP (Call.writesGconf s.params) ∧
    calls.countP (Call.writesGconf s.params) =
      if base.toNat < 128 ∧ 128 ≤ base.toNat + length.toNat - 1 then
        (if s.params.bankOf g = false then 1 else 2)
      else (if s.params.bankOf g = decide (128 ≤ base.toNat) then 0 else 1)

/-- R58's reference MEM device: when `bank_valid` = 0 or the shadow equals the device's register, a successful READBLOCK
whose calls are answered as the device answers them returns `E[base], ..., E[base + length - 1]`, and the shadow ends
equal to the device's register. -/
def Obligations.ReadblockReturnsReferenceMemory : Prop :=
  ∀ (s t : State) (base : LogicalAddr) (length : BitVec 16) (vs : List Byte) (calls : List Call)
    (E : LogicalAddr → Byte) (g0 g1 : Byte),
    length ≠ 0#16 → base.toNat + length.toNat ≤ 256 → exec (.readblock base length) s = .next t →
    t.responses = s.responses ++ [.ok vs] → t.trace = s.trace ++ calls →
    (s.accessor.bankValid = false ∨ s.accessor.gconfShadow = g0) →
    refMem s.params E g0 calls = some g1 →
    vs = (List.range length.toNat).map (fun i => E (BitVec.ofNat 8 (base.toNat + i))) ∧
    t.accessor.gconfShadow = g1

/-- R147, the worked example: BANK_BIT = 6, direct polarity, shadow 0x21, `READBLOCK 127, 2`. -/
def Obligations.ReadblockWorkedExample : Prop :=
  ∀ s : State, s.params.bankBit = 6 → s.params.polarity = .direct →
    s.accessor = { gconfShadow := 0x21#8, bankValid := true } →
    s.memBus = { reads := [some (.byte 0xAA#8), some (.byte 0xBB#8)], writes := [some .ok], drawn := 0 } →
    ∃ t, exec (.readblock 127#8 2#16) s = .next t ∧
      t.trace = s.trace ++ [.read .mem 0xFF#8 (some (.byte 0xAA#8)), .sleep s.params.tEepromSettle,
        .write .mem s.params.gconfAddr 0x61#8 (some .ok), .sleep s.params.tSwitchSettle,
        .read .mem 0x80#8 (some (.byte 0xBB#8)), .sleep s.params.tEepromSettle] ∧
      t.accessor.gconfShadow = 0x61#8 ∧
      t.responses = s.responses ++
        [{ status := 0x00#8, count := 2#9, payload := [0xAA#8, 0xBB#8], detail := none }]

/-- R140: INVALIDATE clears `bank_valid`, makes no call, returns Ok with count 0, changes nothing else but the shadow and
the model's count of unspecified shadows, and nothing at all but the response when `bank_valid` is already 0. What the
shadow becomes is left unsaid. -/
def Obligations.InvalidateCompletes : Prop :=
  ∀ s : State, ∃ t, exec .invalidate s = .next t ∧
    t.accessor.bankValid = false ∧
    t.responses = s.responses ++ [{ status := 0x00#8, count := 0#9, payload := [], detail := none }] ∧
    t = { s with accessor := t.accessor, shadowDraws := t.shadowDraws, responses := t.responses } ∧
    (s.accessor.bankValid = false → t.accessor = s.accessor ∧ t.shadowDraws = s.shadowDraws)

/-- R57: after INVALIDATE the next non-empty, in-range READBLOCK reads the general configuration register before anything
else. -/
def Obligations.InvalidateForcesReread : Prop :=
  ∀ (s t u : State) (base : LogicalAddr) (length : BitVec 16), length ≠ 0#16 → base.toNat + length.toNat ≤ 256 →
    exec .invalidate s = .next t → exec (.readblock base length) t = .next u →
    ∃ more, u.trace =
      s.trace ++ .read .mem s.params.gconfAddr (s.memBus.nextRead .mem) :: more

/-! ### Invariants -/

/-- Every invariant below holds right after reset. -/
def Obligations.InvariantsHoldAtReset : Prop :=
  State.reset.consistent ∧ State.reset.rowCycle ∧ State.reset.debounced ∧ State.reset.traceAllowed ∧
  State.reset.responsesWellFormed ∧ State.reset.responsive

/-- R34 (b), (c), (d): every step keeps them, whatever the transports answer. -/
def Obligations.StepKeepsConsistent : Prop :=
  ∀ s t : State, s.consistent → step s = .next t → t.consistent

/-- R120, R25: every step keeps the row cycle: the k-th successful SCAN writes `rowsel(k mod 8)`. -/
def Obligations.StepKeepsRowCycle : Prop :=
  ∀ s t : State, s.rowCycle → step s = .next t → t.rowCycle

/-- R117: every step keeps the closed form of the filter: byte r of `stable` is the OR of the last N samples of row r. -/
def Obligations.StepKeepsDebounced : Prop :=
  ∀ s t : State, s.debounced → step s = .next t → t.debounced

/-- R40, R72, R181: every step makes only the calls the block may make: it writes no register but ROW_OUT_ADDR, with a
one-hot active-low row select, and GCONF_ADDR, and it never writes into the window. -/
def Obligations.StepMakesOnlyAllowedCalls : Prop :=
  ∀ s t : State, s.traceAllowed → step s = .next t → t.traceAllowed

/-- R83: every step sends only responses of R83's form. -/
def Obligations.StepSendsWellFormedResponses : Prop :=
  ∀ s t : State, s.responsesWellFormed → step s = .next t → t.responsesWellFormed

/-! ### Errors -/

/-- R7 TErr, D18, R83: the block only copies errors. Renaming every error, in the answers to come and in what has been
seen, renames it in the outcome and changes nothing else, in every command that draws no unlisted answer. -/
def Obligations.ErrorsAreOnlyCopied : Prop :=
  ∀ (f : TErr → TErr) (i : Instr) (s t : State), exec i s = .next t →
    t.keyBus.drawn = s.keyBus.drawn → t.memBus.drawn = s.memBus.drawn →
    exec i (s.mapErr f) = .next (t.mapErr f)
end

