-- ==== Sys2Proof/Laws/State.lean ====
section
/-! SUPPORT. Laws/State: each update of State, field by field. -/

namespace Sys2Proof.Machine

variable (s : State) (r : Response) (c : Call) (d : Nat) (t : Transport)

@[simp] theorem State.respond_scanner : (s.respond r).scanner = s.scanner := rfl
@[simp] theorem State.respond_accessor : (s.respond r).accessor = s.accessor := rfl
@[simp] theorem State.respond_phase : (s.respond r).phase = s.phase := rfl
@[simp] theorem State.respond_trace : (s.respond r).trace = s.trace := rfl
@[simp] theorem State.respond_responses : (s.respond r).responses = s.responses ++ [r] := rfl
@[simp] theorem State.respond_host : (s.respond r).host = s.host := rfl
@[simp] theorem State.respond_keyBus : (s.respond r).keyBus = s.keyBus := rfl
@[simp] theorem State.respond_memBus : (s.respond r).memBus = s.memBus := rfl
@[simp] theorem State.respond_params : (s.respond r).params = s.params := rfl
@[simp] theorem State.respond_shadowDraws : (s.respond r).shadowDraws = s.shadowDraws := rfl

@[simp] theorem State.record_scanner : (s.record c).scanner = s.scanner := rfl
@[simp] theorem State.record_accessor : (s.record c).accessor = s.accessor := rfl
@[simp] theorem State.record_phase : (s.record c).phase = s.phase := rfl
@[simp] theorem State.record_trace : (s.record c).trace = s.trace ++ [c] := rfl
@[simp] theorem State.record_responses : (s.record c).responses = s.responses := rfl
@[simp] theorem State.record_host : (s.record c).host = s.host := rfl
@[simp] theorem State.record_keyBus : (s.record c).keyBus = s.keyBus := rfl
@[simp] theorem State.record_memBus : (s.record c).memBus = s.memBus := rfl
@[simp] theorem State.record_params : (s.record c).params = s.params := rfl
@[simp] theorem State.record_shadowDraws : (s.record c).shadowDraws = s.shadowDraws := rfl

@[simp] theorem State.hang_scanner : (s.hang).scanner = s.scanner := rfl
@[simp] theorem State.hang_accessor : (s.hang).accessor = s.accessor := rfl
@[simp] theorem State.hang_phase : (s.hang).phase = .unfinished := rfl
@[simp] theorem State.hang_trace : (s.hang).trace = s.trace := rfl
@[simp] theorem State.hang_responses : (s.hang).responses = s.responses := rfl
@[simp] theorem State.hang_host : (s.hang).host = s.host := rfl
@[simp] theorem State.hang_keyBus : (s.hang).keyBus = s.keyBus := rfl
@[simp] theorem State.hang_memBus : (s.hang).memBus = s.memBus := rfl
@[simp] theorem State.hang_params : (s.hang).params = s.params := rfl
@[simp] theorem State.hang_shadowDraws : (s.hang).shadowDraws = s.shadowDraws := rfl

@[simp] theorem State.sleep_scanner : (s.sleep d).scanner = s.scanner := rfl
@[simp] theorem State.sleep_accessor : (s.sleep d).accessor = s.accessor := rfl
@[simp] theorem State.sleep_phase : (s.sleep d).phase = s.phase := rfl
@[simp] theorem State.sleep_trace : (s.sleep d).trace = s.trace ++ [.sleep d] := rfl
@[simp] theorem State.sleep_responses : (s.sleep d).responses = s.responses := rfl
@[simp] theorem State.sleep_host : (s.sleep d).host = s.host := rfl
@[simp] theorem State.sleep_keyBus : (s.sleep d).keyBus = s.keyBus := rfl
@[simp] theorem State.sleep_memBus : (s.sleep d).memBus = s.memBus := rfl
@[simp] theorem State.sleep_params : (s.sleep d).params = s.params := rfl
@[simp] theorem State.sleep_shadowDraws : (s.sleep d).shadowDraws = s.shadowDraws := rfl

@[simp] theorem State.setBusKey_scanner : (s.setBus .key t).scanner = s.scanner := rfl
@[simp] theorem State.setBusKey_accessor : (s.setBus .key t).accessor = s.accessor := rfl
@[simp] theorem State.setBusKey_phase : (s.setBus .key t).phase = s.phase := rfl
@[simp] theorem State.setBusKey_trace : (s.setBus .key t).trace = s.trace := rfl
@[simp] theorem State.setBusKey_responses : (s.setBus .key t).responses = s.responses := rfl
@[simp] theorem State.setBusKey_host : (s.setBus .key t).host = s.host := rfl
@[simp] theorem State.setBusKey_keyBus : (s.setBus .key t).keyBus = t := rfl
@[simp] theorem State.setBusKey_memBus : (s.setBus .key t).memBus = s.memBus := rfl
@[simp] theorem State.setBusKey_params : (s.setBus .key t).params = s.params := rfl
@[simp] theorem State.setBusKey_shadowDraws : (s.setBus .key t).shadowDraws = s.shadowDraws := rfl

@[simp] theorem State.setBusMem_scanner : (s.setBus .mem t).scanner = s.scanner := rfl
@[simp] theorem State.setBusMem_accessor : (s.setBus .mem t).accessor = s.accessor := rfl
@[simp] theorem State.setBusMem_phase : (s.setBus .mem t).phase = s.phase := rfl
@[simp] theorem State.setBusMem_trace : (s.setBus .mem t).trace = s.trace := rfl
@[simp] theorem State.setBusMem_responses : (s.setBus .mem t).responses = s.responses := rfl
@[simp] theorem State.setBusMem_host : (s.setBus .mem t).host = s.host := rfl
@[simp] theorem State.setBusMem_keyBus : (s.setBus .mem t).keyBus = s.keyBus := rfl
@[simp] theorem State.setBusMem_memBus : (s.setBus .mem t).memBus = t := rfl
@[simp] theorem State.setBusMem_params : (s.setBus .mem t).params = s.params := rfl
@[simp] theorem State.setBusMem_shadowDraws : (s.setBus .mem t).shadowDraws = s.shadowDraws := rfl

@[simp] theorem State.resetBlock_scanner : (s.resetBlock).scanner = Scanner.reset := rfl
@[simp] theorem State.resetBlock_accessor : (s.resetBlock).accessor = Accessor.reset := rfl
@[simp] theorem State.resetBlock_phase : (s.resetBlock).phase = .idle := rfl
@[simp] theorem State.resetBlock_trace : (s.resetBlock).trace = [] := rfl
@[simp] theorem State.resetBlock_responses : (s.resetBlock).responses = [] := rfl
@[simp] theorem State.resetBlock_host : (s.resetBlock).host = s.host := rfl
@[simp] theorem State.resetBlock_keyBus : (s.resetBlock).keyBus = s.keyBus := rfl
@[simp] theorem State.resetBlock_memBus : (s.resetBlock).memBus = s.memBus := rfl
@[simp] theorem State.resetBlock_params : (s.resetBlock).params = s.params := rfl
@[simp] theorem State.resetBlock_shadowDraws : (s.resetBlock).shadowDraws = s.shadowDraws := rfl

@[simp] theorem State.refuseWord_scanner : (s.refuseWord).scanner = s.scanner := rfl
@[simp] theorem State.refuseWord_accessor : (s.refuseWord).accessor = s.accessor := rfl
@[simp] theorem State.refuseWord_phase : (s.refuseWord).phase = s.phase := rfl
@[simp] theorem State.refuseWord_trace : (s.refuseWord).trace = s.trace := rfl
@[simp] theorem State.refuseWord_responses : (s.refuseWord).responses = s.responses ++ [.illegalCommand] := rfl
@[simp] theorem State.refuseWord_host : (s.refuseWord).host = s.host := rfl
@[simp] theorem State.refuseWord_keyBus : (s.refuseWord).keyBus = s.keyBus := rfl
@[simp] theorem State.refuseWord_memBus : (s.refuseWord).memBus = s.memBus := rfl
@[simp] theorem State.refuseWord_params : (s.refuseWord).params = s.params := rfl
@[simp] theorem State.refuseWord_shadowDraws : (s.refuseWord).shadowDraws = s.shadowDraws := rfl

@[simp] theorem State.bus_key : s.bus .key = s.keyBus := rfl
@[simp] theorem State.bus_mem : s.bus .mem = s.memBus := rfl

@[simp] theorem State.readDone_key_scanner (a : RegAddr) : (s.readDone .key a).scanner = s.scanner := rfl
@[simp] theorem State.readDone_key_accessor (a : RegAddr) : (s.readDone .key a).accessor = s.accessor := rfl
@[simp] theorem State.readDone_key_phase (a : RegAddr) : (s.readDone .key a).phase = s.phase := rfl
@[simp] theorem State.readDone_key_trace (a : RegAddr) : (s.readDone .key a).trace = s.trace ++ [.read .key a (s.keyBus.nextRead .key)] := rfl
@[simp] theorem State.readDone_key_responses (a : RegAddr) : (s.readDone .key a).responses = s.responses := rfl
@[simp] theorem State.readDone_key_host (a : RegAddr) : (s.readDone .key a).host = s.host := rfl
@[simp] theorem State.readDone_key_keyBus (a : RegAddr) : (s.readDone .key a).keyBus = s.keyBus.afterRead := rfl
@[simp] theorem State.readDone_key_memBus (a : RegAddr) : (s.readDone .key a).memBus = s.memBus := rfl
@[simp] theorem State.readDone_key_params (a : RegAddr) : (s.readDone .key a).params = s.params := rfl
@[simp] theorem State.readDone_key_shadowDraws (a : RegAddr) : (s.readDone .key a).shadowDraws = s.shadowDraws := rfl

@[simp] theorem State.writeDone_key_scanner (a : RegAddr) (v : Byte) : (s.writeDone .key a v).scanner = s.scanner := rfl
@[simp] theorem State.writeDone_key_accessor (a : RegAddr) (v : Byte) : (s.writeDone .key a v).accessor = s.accessor := rfl
@[simp] theorem State.writeDone_key_phase (a : RegAddr) (v : Byte) : (s.writeDone .key a v).phase = s.phase := rfl
@[simp] theorem State.writeDone_key_trace (a : RegAddr) (v : Byte) : (s.writeDone .key a v).trace = s.trace ++ [.write .key a v (s.keyBus.nextWrite .key)] := rfl
@[simp] theorem State.writeDone_key_responses (a : RegAddr) (v : Byte) : (s.writeDone .key a v).responses = s.responses := rfl
@[simp] theorem State.writeDone_key_host (a : RegAddr) (v : Byte) : (s.writeDone .key a v).host = s.host := rfl
@[simp] theorem State.writeDone_key_keyBus (a : RegAddr) (v : Byte) : (s.writeDone .key a v).keyBus = s.keyBus.afterWrite := rfl
@[simp] theorem State.writeDone_key_memBus (a : RegAddr) (v : Byte) : (s.writeDone .key a v).memBus = s.memBus := rfl
@[simp] theorem State.writeDone_key_params (a : RegAddr) (v : Byte) : (s.writeDone .key a v).params = s.params := rfl
@[simp] theorem State.writeDone_key_shadowDraws (a : RegAddr) (v : Byte) : (s.writeDone .key a v).shadowDraws = s.shadowDraws := rfl

@[simp] theorem State.readDone_mem_scanner (a : RegAddr) : (s.readDone .mem a).scanner = s.scanner := rfl
@[simp] theorem State.readDone_mem_accessor (a : RegAddr) : (s.readDone .mem a).accessor = s.accessor := rfl
@[simp] theorem State.readDone_mem_phase (a : RegAddr) : (s.readDone .mem a).phase = s.phase := rfl
@[simp] theorem State.readDone_mem_trace (a : RegAddr) : (s.readDone .mem a).trace = s.trace ++ [.read .mem a (s.memBus.nextRead .mem)] := rfl
@[simp] theorem State.readDone_mem_responses (a : RegAddr) : (s.readDone .mem a).responses = s.responses := rfl
@[simp] theorem State.readDone_mem_host (a : RegAddr) : (s.readDone .mem a).host = s.host := rfl
@[simp] theorem State.readDone_mem_keyBus (a : RegAddr) : (s.readDone .mem a).keyBus = s.keyBus := rfl
@[simp] theorem State.readDone_mem_memBus (a : RegAddr) : (s.readDone .mem a).memBus = s.memBus.afterRead := rfl
@[simp] theorem State.readDone_mem_params (a : RegAddr) : (s.readDone .mem a).params = s.params := rfl
@[simp] theorem State.readDone_mem_shadowDraws (a : RegAddr) : (s.readDone .mem a).shadowDraws = s.shadowDraws := rfl

@[simp] theorem State.writeDone_mem_scanner (a : RegAddr) (v : Byte) : (s.writeDone .mem a v).scanner = s.scanner := rfl
@[simp] theorem State.writeDone_mem_accessor (a : RegAddr) (v : Byte) : (s.writeDone .mem a v).accessor = s.accessor := rfl
@[simp] theorem State.writeDone_mem_phase (a : RegAddr) (v : Byte) : (s.writeDone .mem a v).phase = s.phase := rfl
@[simp] theorem State.writeDone_mem_trace (a : RegAddr) (v : Byte) : (s.writeDone .mem a v).trace = s.trace ++ [.write .mem a v (s.memBus.nextWrite .mem)] := rfl
@[simp] theorem State.writeDone_mem_responses (a : RegAddr) (v : Byte) : (s.writeDone .mem a v).responses = s.responses := rfl
@[simp] theorem State.writeDone_mem_host (a : RegAddr) (v : Byte) : (s.writeDone .mem a v).host = s.host := rfl
@[simp] theorem State.writeDone_mem_keyBus (a : RegAddr) (v : Byte) : (s.writeDone .mem a v).keyBus = s.keyBus := rfl
@[simp] theorem State.writeDone_mem_memBus (a : RegAddr) (v : Byte) : (s.writeDone .mem a v).memBus = s.memBus.afterWrite := rfl
@[simp] theorem State.writeDone_mem_params (a : RegAddr) (v : Byte) : (s.writeDone .mem a v).params = s.params := rfl
@[simp] theorem State.writeDone_mem_shadowDraws (a : RegAddr) (v : Byte) : (s.writeDone .mem a v).shadowDraws = s.shadowDraws := rfl

end Sys2Proof.Machine
end

