-- ==== Sys2Proof/Laws/Ops.lean ====
section
/-! SUPPORT. Laws/Ops: what each shared operation can do, said once. -/

namespace Sys2Proof.Machine

/-! ### Transports -/

section
variable (d : Device) (t : Transport)

@[simp] theorem Transport.nextRead_listed (a : Option ReadAnswer) (rs : List (Option ReadAnswer))
    (h : t.reads = a :: rs) : t.nextRead d = a := by simp [Transport.nextRead, h]

@[simp] theorem Transport.nextWrite_listed (a : Option WriteAnswer) (ws : List (Option WriteAnswer))
    (h : t.writes = a :: ws) : t.nextWrite d = a := by simp [Transport.nextWrite, h]

theorem Transport.afterRead_listed (a : Option ReadAnswer) (rs : List (Option ReadAnswer))
    (h : t.reads = a :: rs) : t.afterRead = { t with reads := rs } := by simp [Transport.afterRead, h]

theorem Transport.afterWrite_listed (a : Option WriteAnswer) (ws : List (Option WriteAnswer))
    (h : t.writes = a :: ws) : t.afterWrite = { t with writes := ws } := by simp [Transport.afterWrite, h]

@[simp] theorem Transport.afterRead_writes : t.afterRead.writes = t.writes := by
  unfold Transport.afterRead; split <;> rfl

@[simp] theorem Transport.afterWrite_reads : t.afterWrite.reads = t.reads := by
  unfold Transport.afterWrite; split <;> rfl

theorem Transport.afterRead_reads : t.afterRead.reads = t.reads.tail := by
  unfold Transport.afterRead; split <;> simp_all

theorem Transport.afterWrite_writes : t.afterWrite.writes = t.writes.tail := by
  unfold Transport.afterWrite; split <;> simp_all

/-- Only a listed silent call has no answer: the oracle always answers (R14). -/
theorem Transport.nextRead_eq_none (h : t.nextRead d = none) : none ∈ t.reads := by
  unfold Transport.nextRead at h
  split at h <;> simp_all

/-- Only a listed silent call has no answer: the oracle always answers (R14). -/
theorem Transport.nextWrite_eq_none (h : t.nextWrite d = none) : none ∈ t.writes := by
  unfold Transport.nextWrite at h
  split at h <;> simp_all

end

/-! ### Sequencing -/

section
variable {α β : Type} (m : Progress α) (rest : α → State → Progress β)

@[simp] theorem Progress.andThen_going (a : α) (s : State) : (Progress.going a s).andThen rest = rest a s := rfl

@[simp] theorem Progress.andThen_ended (s : State) : (Progress.ended s : Progress α).andThen rest = .ended s := rfl

/-- A sequence ends where its first part ends or where its second part does. -/
theorem Progress.andThen_eq_ended {t : State} (h : m.andThen rest = .ended t) :
    m = .ended t ∨ ∃ a s, m = .going a s ∧ rest a s = .ended t := by
  cases m with
  | going a s => exact .inr ⟨a, s, rfl, h⟩
  | ended s => simp at h; exact .inl (by rw [h])

/-- A sequence goes on only through both parts. -/
theorem Progress.andThen_eq_going {b : β} {t : State} (h : m.andThen rest = .going b t) :
    ∃ a s, m = .going a s ∧ rest a s = .going b t := by
  cases m with
  | going a s => exact ⟨a, s, rfl, h⟩
  | ended s => simp at h

@[simp] theorem Progress.finish_going (payload : List Byte) (s : State) :
    (Progress.going payload s).finish = s.respond (.ok payload) := rfl

@[simp] theorem Progress.finish_ended (s : State) : (Progress.ended s : Progress (List Byte)).finish = s := rfl

end

/-- What a command in execution satisfies: `P` where it goes on, `Q` where it has ended. -/
def Progress.Meets {α : Type} (m : Progress α) (P : α → State → Prop) (Q : State → Prop) : Prop :=
  match m with
  | .going a s => P a s
  | .ended s => Q s

section
variable {α β : Type} {P : α → State → Prop} {P' : β → State → Prop} {Q : State → Prop}

@[simp] theorem Progress.meets_going (a : α) (s : State) : (Progress.going a s).Meets P Q ↔ P a s := Iff.rfl

@[simp] theorem Progress.meets_ended (s : State) : (Progress.ended s : Progress α).Meets P Q ↔ Q s := Iff.rfl

/-- A sequence meets what its second part meets from wherever its first part goes on. -/
theorem Progress.Meets.andThen {m : Progress α} {rest : α → State → Progress β} (h : m.Meets P Q)
    (hrest : ∀ a s, P a s → (rest a s).Meets P' Q) : (m.andThen rest).Meets P' Q := by
  cases m with
  | going a s => exact hrest a s h
  | ended s => exact h

theorem Progress.Meets.finish {m : Progress (List Byte)} {P : List Byte → State → Prop} (h : m.Meets P Q)
    (hok : ∀ vs s, P vs s → Q (s.respond (.ok vs))) : Q m.finish := by
  cases m with
  | going a s => exact hok a s h
  | ended s => exact h

end

/-! ### Transport calls -/

section
variable (s : State) (d : Device) (a : RegAddr) (v : Byte)

theorem State.memRead_byte (h : (s.bus d).nextRead d = some (.byte v)) :
    s.memRead d a = .going v (s.readDone d a) := by simp [State.memRead, h]

theorem State.memRead_error (e : TErr) (h : (s.bus d).nextRead d = some (.error e)) :
    s.memRead d a = .ended ((s.readDone d a).respond (.transportError e)) := by simp [State.memRead, h]

theorem State.memRead_silent (h : (s.bus d).nextRead d = none) :
    s.memRead d a = .ended (s.readDone d a).hang := by simp [State.memRead, h]

theorem State.memWrite_ok (h : (s.bus d).nextWrite d = some .ok) :
    s.memWrite d a v = .going () (s.writeDone d a v) := by simp [State.memWrite, h]

theorem State.memWrite_error (e : TErr) (h : (s.bus d).nextWrite d = some (.error e)) :
    s.memWrite d a v = .ended ((s.writeDone d a v).respond (.transportError e)) := by simp [State.memWrite, h]

theorem State.memWrite_silent (h : (s.bus d).nextWrite d = none) :
    s.memWrite d a v = .ended (s.writeDone d a v).hang := by simp [State.memWrite, h]

/-- Everything a `MemRead` can do: a byte and on, an error response, or no answer (R13, R41). -/
theorem State.memRead_cases :
    (∃ v, (s.bus d).nextRead d = some (.byte v) ∧ s.memRead d a = .going v (s.readDone d a)) ∨
    (∃ e, (s.bus d).nextRead d = some (.error e) ∧
      s.memRead d a = .ended ((s.readDone d a).respond (.transportError e))) ∨
    ((s.bus d).nextRead d = none ∧ s.memRead d a = .ended (s.readDone d a).hang) := by
  rcases h : (s.bus d).nextRead d with _ | (v | e)
  · exact .inr (.inr ⟨rfl, s.memRead_silent d a h⟩)
  · exact .inl ⟨v, rfl, s.memRead_byte d a v h⟩
  · exact .inr (.inl ⟨e, rfl, s.memRead_error d a e h⟩)

/-- Everything a `MemWrite` can do: ok and on, an error response, or no answer (R13, R41). -/
theorem State.memWrite_cases :
    ((s.bus d).nextWrite d = some .ok ∧ s.memWrite d a v = .going () (s.writeDone d a v)) ∨
    (∃ e, (s.bus d).nextWrite d = some (.error e) ∧
      s.memWrite d a v = .ended ((s.writeDone d a v).respond (.transportError e))) ∨
    ((s.bus d).nextWrite d = none ∧ s.memWrite d a v = .ended (s.writeDone d a v).hang) := by
  rcases h : (s.bus d).nextWrite d with _ | (_ | e)
  · exact .inr (.inr ⟨rfl, s.memWrite_silent d a v h⟩)
  · exact .inl ⟨rfl, s.memWrite_ok d a v h⟩
  · exact .inr (.inl ⟨e, rfl, s.memWrite_error d a v e h⟩)

end

end Sys2Proof.Machine
end

