-- ==== Sys2Proof/Laws/BankedMemory.lean ====
section
/-! SUPPORT. Laws/BankedMemory: what the translation, the bank switch, the byte read, the loop of READBLOCK and the three
ways into it do. -/

namespace Sys2Proof

/-! ### Translation and range (R46, R134, R136) -/

theorem outOfRange_iff (base : LogicalAddr) (length : BitVec 16) :
    outOfRange base length = true ↔ 256 < base.toNat + length.toNat := by
  have h1 := base.isLt
  have h2 := length.isLt
  simp only [outOfRange, decide_eq_true_eq, BitVec.lt_def, BitVec.toNat_add, BitVec.toNat_setWidth, BitVec.toNat_ofNat]
  omega

@[simp] theorem blockAddrs_length (base : LogicalAddr) (n : Nat) : (blockAddrs base n).length = n := by
  induction n generalizing base with
  | zero => rfl
  | succ n ih => simp [blockAddrs, ih]

theorem blockAddrs_getElem (base : LogicalAddr) (n i : Nat) (h : i < (blockAddrs base n).length) :
    (blockAddrs base n)[i] = base + BitVec.ofNat 8 i := by
  induction n generalizing base i with
  | zero => simp [blockAddrs] at h
  | succ n ih =>
    cases i with
    | zero => simp [blockAddrs]
    | succ i =>
      have h1 : (1#8).toNat = 1 := rfl
      simp only [blockAddrs, List.getElem_cons_succ, ih]
      apply BitVec.eq_of_toNat_eq
      simp only [BitVec.toNat_add, BitVec.toNat_ofNat, h1]
      omega

theorem physAddr_toNat (a : LogicalAddr) : (physAddr a).toNat = 128 + a.toNat % 128 := by
  have h : ∀ a : BitVec 8, (0x80#8 + (a &&& 0x7F#8)).toNat = 128 + a.toNat % 128 := by decide
  exact h a

theorem targetBank_eq (a : LogicalAddr) : targetBank a = decide (128 ≤ a.toNat) := by
  have h : ∀ a : BitVec 8, a.getLsbD 7 = decide (128 ≤ a.toNat) := by decide
  exact h a

/-- GCONF_ADDR lies outside the window (R7). -/
theorem Params.gconfAddr_lt (p : Params) : p.gconfAddr.toNat < 128 := by
  have := p.gconfLow.isLt
  simp only [Params.gconfAddr, BitVec.toNat_setWidth]
  omega

theorem Params.physAddr_ne_gconfAddr (p : Params) (a : LogicalAddr) : physAddr a ≠ p.gconfAddr := by
  intro h
  have h1 := congrArg BitVec.toNat h
  have h2 := p.gconfAddr_lt
  rw [physAddr_toNat] at h1
  omega

/-! ### The bank-select bit (R28) -/

@[simp] theorem Params.bitVal_bitVal (p : Params) (b : Bank) : p.bitVal (p.bitVal b) = b := by
  unfold Params.bitVal; split <;> simp

theorem Params.withBank_getLsbD (p : Params) (g : Byte) (b : Bank) (i : Nat) (hi : i < 8) :
    (p.withBank g b).getLsbD i = if i = p.bankBit.val then p.bitVal b else g.getLsbD i := by
  have hk := p.bankBit.isLt
  have h1 : (1#8 <<< p.bankBit.val).getLsbD i = decide (i = p.bankBit.val) := by
    simp only [BitVec.getLsbD_shiftLeft, BitVec.getLsbD_one, hi, decide_true, Bool.true_and]
    rw [Bool.eq_iff_iff]; simp; omega
  have h2 : ((BitVec.ofBool (p.bitVal b)).setWidth 8 <<< p.bankBit.val).getLsbD i =
      (decide (i = p.bankBit.val) && p.bitVal b) := by
    simp only [BitVec.getLsbD_shiftLeft, BitVec.getLsbD_setWidth, BitVec.getLsbD_ofBool, hi, decide_true,
      Bool.true_and]
    rcases Nat.lt_trichotomy i p.bankBit.val with h | h | h
    · simp [h, Nat.ne_of_lt h]
    · simp [h]
    · have h0 : ¬ i < p.bankBit.val := by omega
      have h1 : ¬ i - p.bankBit.val = 0 := by omega
      have h2 : ¬ i = p.bankBit.val := by omega
      simp [h0, h1, h2]
  simp only [Params.withBank, BitVec.getLsbD_or, BitVec.getLsbD_and, BitVec.getLsbD_not, h1, h2, hi, decide_true,
    Bool.true_and]
  by_cases h : i = p.bankBit.val <;> simp [h]

/-- `bank_of(with_bank(g, b)) = b` (R28). -/
theorem Params.bankOf_withBank (p : Params) (g : Byte) (b : Bank) : p.bankOf (p.withBank g b) = b := by
  rw [Params.bankOf, Params.withBank_getLsbD _ _ _ _ p.bankBit.isLt, if_pos rfl, Params.bitVal_bitVal]

end Sys2Proof

namespace Sys2Proof.Machine

variable (s : State)

/-! ### One iteration of the loop (R132) -/

theorem State.selectBank_same (b : Bank) (h : b = s.params.bankOf s.accessor.gconfShadow) :
    s.selectBank b = .going () s := by simp [State.selectBank, h]

/-- The state when the bank-select write for bank `b` has been issued and its answer, if any, has come (R137). -/
def State.switchCall (b : Bank) : State :=
  s.writeDone .mem s.params.gconfAddr (s.params.withBank s.accessor.gconfShadow b)

/-- The state when that write answered ok and its settle delay has passed (R137, R139). -/
def State.switched (b : Bank) : State :=
  State.sleep
    { s.switchCall b with
      accessor := { s.accessor with gconfShadow := s.params.withBank s.accessor.gconfShadow b } }
    s.params.tSwitchSettle

/-- The state when the lazy-initialisation read has answered `g` (R135). -/
def State.initialised (g : Byte) : State :=
  { s.readDone .mem s.params.gconfAddr with accessor := { gconfShadow := g, bankValid := true } }

/-- Everything a needed bank switch can do (R137, R139). -/
theorem State.selectBank_cases (b : Bank) (h : b ≠ s.params.bankOf s.accessor.gconfShadow) :
    (s.memBus.nextWrite .mem = some .ok ∧ s.selectBank b = .going () (s.switched b)) ∨
    (∃ e, s.memBus.nextWrite .mem = some (.error e) ∧
      s.selectBank b = .ended ((s.switchCall b).respond (.transportError e))) ∨
    (s.memBus.nextWrite .mem = none ∧ s.selectBank b = .ended (s.switchCall b).hang) := by
  have key := s.memWrite_cases .mem s.params.gconfAddr (s.params.withBank s.accessor.gconfShadow b)
  simp only [State.selectBank, if_neg h]
  rcases key with ⟨h1, h2⟩ | ⟨e, h1, h2⟩ | ⟨h1, h2⟩
  · exact .inl ⟨h1, by rw [h2]; rfl⟩
  · exact .inr (.inl ⟨e, h1, by rw [h2]; rfl⟩)
  · exact .inr (.inr ⟨h1, by rw [h2]; rfl⟩)

@[simp] theorem State.switchCall_scanner (b : Bank) : (s.switchCall b).scanner = s.scanner := rfl
@[simp] theorem State.switchCall_accessor (b : Bank) : (s.switchCall b).accessor = s.accessor := rfl
@[simp] theorem State.switchCall_phase (b : Bank) : (s.switchCall b).phase = s.phase := rfl
@[simp] theorem State.switchCall_trace (b : Bank) : (s.switchCall b).trace =
    s.trace ++ [.write .mem s.params.gconfAddr (s.params.withBank s.accessor.gconfShadow b) (s.memBus.nextWrite .mem)] := rfl
@[simp] theorem State.switchCall_responses (b : Bank) : (s.switchCall b).responses = s.responses := rfl
@[simp] theorem State.switchCall_host (b : Bank) : (s.switchCall b).host = s.host := rfl
@[simp] theorem State.switchCall_keyBus (b : Bank) : (s.switchCall b).keyBus = s.keyBus := rfl
@[simp] theorem State.switchCall_memBus (b : Bank) : (s.switchCall b).memBus = s.memBus.afterWrite := rfl
@[simp] theorem State.switchCall_params (b : Bank) : (s.switchCall b).params = s.params := rfl
@[simp] theorem State.switchCall_shadowDraws (b : Bank) : (s.switchCall b).shadowDraws = s.shadowDraws := rfl

@[simp] theorem State.switched_scanner (b : Bank) : (s.switched b).scanner = s.scanner := rfl
@[simp] theorem State.switched_accessor (b : Bank) : (s.switched b).accessor =
    { s.accessor with gconfShadow := s.params.withBank s.accessor.gconfShadow b } := rfl
@[simp] theorem State.switched_phase (b : Bank) : (s.switched b).phase = s.phase := rfl
@[simp] theorem State.switched_trace (b : Bank) : (s.switched b).trace =
    s.trace ++ [.write .mem s.params.gconfAddr (s.params.withBank s.accessor.gconfShadow b) (s.memBus.nextWrite .mem)] ++
      [.sleep s.params.tSwitchSettle] := rfl
@[simp] theorem State.switched_responses (b : Bank) : (s.switched b).responses = s.responses := rfl
@[simp] theorem State.switched_host (b : Bank) : (s.switched b).host = s.host := rfl
@[simp] theorem State.switched_keyBus (b : Bank) : (s.switched b).keyBus = s.keyBus := rfl
@[simp] theorem State.switched_memBus (b : Bank) : (s.switched b).memBus = s.memBus.afterWrite := rfl
@[simp] theorem State.switched_params (b : Bank) : (s.switched b).params = s.params := rfl
@[simp] theorem State.switched_shadowDraws (b : Bank) : (s.switched b).shadowDraws = s.shadowDraws := rfl

@[simp] theorem State.initialised_scanner (g : Byte) : (s.initialised g).scanner = s.scanner := rfl
@[simp] theorem State.initialised_accessor (g : Byte) : (s.initialised g).accessor =
    { gconfShadow := g, bankValid := true } := rfl
@[simp] theorem State.initialised_phase (g : Byte) : (s.initialised g).phase = s.phase := rfl
@[simp] theorem State.initialised_trace (g : Byte) : (s.initialised g).trace =
    s.trace ++ [.read .mem s.params.gconfAddr (s.memBus.nextRead .mem)] := rfl
@[simp] theorem State.initialised_responses (g : Byte) : (s.initialised g).responses = s.responses := rfl
@[simp] theorem State.initialised_host (g : Byte) : (s.initialised g).host = s.host := rfl
@[simp] theorem State.initialised_keyBus (g : Byte) : (s.initialised g).keyBus = s.keyBus := rfl
@[simp] theorem State.initialised_memBus (g : Byte) : (s.initialised g).memBus = s.memBus.afterRead := rfl
@[simp] theorem State.initialised_params (g : Byte) : (s.initialised g).params = s.params := rfl
@[simp] theorem State.initialised_shadowDraws (g : Byte) : (s.initialised g).shadowDraws = s.shadowDraws := rfl

/-- After a switch the shadow is at the wanted bank (R137). -/
theorem State.switched_bank (b : Bank) :
    (s.switched b).params.bankOf (s.switched b).accessor.gconfShadow = b := by
  simp [Params.bankOf_withBank]

/-- Everything a byte read can do (R138). -/
theorem State.readWindow_cases (a : LogicalAddr) :
    (∃ v, s.memBus.nextRead .mem = some (.byte v) ∧
      s.readWindow a = .going v ((s.readDone .mem (physAddr a)).sleep s.params.tEepromSettle)) ∨
    (∃ e, s.memBus.nextRead .mem = some (.error e) ∧
      s.readWindow a = .ended ((s.readDone .mem (physAddr a)).respond (.transportError e))) ∨
    (s.memBus.nextRead .mem = none ∧ s.readWindow a = .ended (s.readDone .mem (physAddr a)).hang) := by
  rcases s.memRead_cases .mem (physAddr a) with ⟨v, h1, h2⟩ | ⟨e, h1, h2⟩ | ⟨h1, h2⟩
  · exact .inl ⟨v, h1, by rw [State.readWindow, h2]; rfl⟩
  · exact .inr (.inl ⟨e, h1, by rw [State.readWindow, h2]; rfl⟩)
  · exact .inr (.inr ⟨h1, by rw [State.readWindow, h2]; rfl⟩)

/-! ### What the loop keeps -/

/-- The loop of R132, said once. `P done todo s`: the bytes `done` have been read, the addresses `todo` are still to read.
A bank switch and a byte read keep it, the latter moving on by one address; where either ends the command, `Q` holds. -/
theorem readAddrs_meets {P : List Byte → List LogicalAddr → State → Prop} {Q : State → Prop}
    (switchOk : ∀ done a rest (s : State), P done (a :: rest) s →
      targetBank a ≠ s.params.bankOf s.accessor.gconfShadow → s.memBus.nextWrite .mem = some .ok →
      P done (a :: rest) (s.switched (targetBank a)))
    (switchError : ∀ done a rest (s : State) (e : TErr), P done (a :: rest) s →
      targetBank a ≠ s.params.bankOf s.accessor.gconfShadow → s.memBus.nextWrite .mem = some (.error e) →
      Q ((s.switchCall (targetBank a)).respond (.transportError e)))
    (switchSilent : ∀ done a rest (s : State), P done (a :: rest) s →
      targetBank a ≠ s.params.bankOf s.accessor.gconfShadow → s.memBus.nextWrite .mem = none →
      Q (s.switchCall (targetBank a)).hang)
    (readByte : ∀ done a rest (s : State) (v : Byte), P done (a :: rest) s →
      targetBank a = s.params.bankOf s.accessor.gconfShadow → s.memBus.nextRead .mem = some (.byte v) →
      P (done ++ [v]) rest ((s.readDone .mem (physAddr a)).sleep s.params.tEepromSettle))
    (readError : ∀ done a rest (s : State) (e : TErr), P done (a :: rest) s →
      targetBank a = s.params.bankOf s.accessor.gconfShadow → s.memBus.nextRead .mem = some (.error e) →
      Q ((s.readDone .mem (physAddr a)).respond (.transportError e)))
    (readSilent : ∀ done a rest (s : State), P done (a :: rest) s →
      targetBank a = s.params.bankOf s.accessor.gconfShadow → s.memBus.nextRead .mem = none →
      Q (s.readDone .mem (physAddr a)).hang)
    (todo : List LogicalAddr) (done : List Byte) (s : State) (h : P done todo s) :
    (readAddrs todo s).Meets (fun vs t => P (done ++ vs) [] t) Q := by
  induction todo generalizing done s with
  | nil => simpa [readAddrs] using h
  | cons a rest ih =>
    have selected : (s.selectBank (targetBank a)).Meets
        (fun _ t => P done (a :: rest) t ∧ targetBank a = t.params.bankOf t.accessor.gconfShadow) Q := by
      by_cases hb : targetBank a = s.params.bankOf s.accessor.gconfShadow
      · rw [s.selectBank_same _ hb]; exact ⟨h, hb⟩
      · rcases s.selectBank_cases _ hb with ⟨h2, h3⟩ | ⟨e, h2, h3⟩ | ⟨h2, h3⟩
        · rw [h3]; exact ⟨switchOk _ _ _ s h hb h2, (s.switched_bank _).symm⟩
        · rw [h3]; exact switchError _ _ _ s e h hb h2
        · rw [h3]; exact switchSilent _ _ _ s h hb h2
    have byteRead : (s.readLogical a).Meets (fun v t => P (done ++ [v]) rest t) Q := by
      refine selected.andThen fun _ t ht => ?_
      rcases t.readWindow_cases a with ⟨v, h2, h3⟩ | ⟨e, h2, h3⟩ | ⟨h2, h3⟩
      · rw [h3]; exact readByte _ _ _ t v ht.1 ht.2 h2
      · rw [h3]; exact readError _ _ _ t e ht.1 ht.2 h2
      · rw [h3]; exact readSilent _ _ _ t ht.1 ht.2 h2
    refine byteRead.andThen fun v t ht => (ih (done ++ [v]) t ht).andThen fun vs u hu => ?_
    simpa using hu

/-- The loop reads one byte for each address. -/
theorem readAddrs_length (addrs : List LogicalAddr) (s : State) :
    (readAddrs addrs s).Meets (fun vs _ => vs.length = addrs.length) (fun _ => True) := by
  have := readAddrs_meets (P := fun done todo _ => done.length + todo.length = addrs.length) (Q := fun _ => True)
    (fun _ _ _ _ h _ _ => h) (fun _ _ _ _ _ _ _ _ => trivial) (fun _ _ _ _ _ _ _ => trivial)
    (fun _ _ _ _ _ h _ _ => by simp at *; omega) (fun _ _ _ _ _ _ _ _ => trivial) (fun _ _ _ _ _ _ _ => trivial)
    addrs [] s (by simp)
  simpa using this

/-! ### The ways into READBLOCK (R133 to R135) -/

theorem readBlock_zero (base : LogicalAddr) : readBlock base 0#16 s = s.respond (.ok []) := by simp [readBlock]

theorem readBlock_outOfRange (base : LogicalAddr) (length : BitVec 16) (h : 256 < base.toNat + length.toNat) :
    readBlock base length s = s.respond .rangeError := by
  have hb := base.isLt
  have h0 : length ≠ 0#16 := by rintro rfl; simp at h; omega
  rw [readBlock, if_neg h0, if_pos ((outOfRange_iff base length).mpr h)]

/-- A block read that gets past the range check (R132). -/
theorem readBlock_inRange (base : LogicalAddr) (length : BitVec 16) (h0 : length ≠ 0#16)
    (h : base.toNat + length.toNat ≤ 256) :
    readBlock base length s =
      (s.lazyInit.andThen fun _ s1 => readAddrs (blockAddrs base length.toNat) s1).finish := by
  have hr : ¬ outOfRange base length = true := by
    rw [outOfRange_iff]; omega
  rw [readBlock, if_neg h0, if_neg hr]

/-- Everything the lazy initialisation can do (R135). -/
theorem State.lazyInit_cases :
    (s.accessor.bankValid = true ∧ s.lazyInit = .going () s) ∨
    (s.accessor.bankValid = false ∧ ∃ g, s.memBus.nextRead .mem = some (.byte g) ∧
      s.lazyInit = .going () (s.initialised g)) ∨
    (s.accessor.bankValid = false ∧ ∃ e, s.memBus.nextRead .mem = some (.error e) ∧
      s.lazyInit = .ended ((s.readDone .mem s.params.gconfAddr).respond (.transportError e))) ∨
    (s.accessor.bankValid = false ∧ s.memBus.nextRead .mem = none ∧
      s.lazyInit = .ended (s.readDone .mem s.params.gconfAddr).hang) := by
  rcases hv : s.accessor.bankValid with _ | _
  · rcases s.memRead_cases .mem s.params.gconfAddr with ⟨v, h1, h2⟩ | ⟨e, h1, h2⟩ | ⟨h1, h2⟩
    · exact .inr (.inl ⟨rfl, v, h1, by simp [State.lazyInit, hv, h2, State.initialised]⟩)
    · exact .inr (.inr (.inl ⟨rfl, e, h1, by simp [State.lazyInit, hv, h2]⟩))
    · exact .inr (.inr (.inr ⟨rfl, h1, by simp [State.lazyInit, hv, h2]⟩))
  · exact .inl ⟨rfl, by simp [State.lazyInit, hv]⟩

/-- What READBLOCK ends in (R132): a property `P` that holds at the start and that initialisation, a bank switch and a
byte read keep, and a property `Q` that holds wherever a response has been sent or none will be. -/
theorem readBlock_induct {P Q : State → Prop} (base : LogicalAddr) (length : BitVec 16) (s : State) (h : P s)
    (initOk : ∀ (s : State) (g : Byte), P s → s.accessor.bankValid = false → s.memBus.nextRead .mem = some (.byte g) →
      P (s.initialised g))
    (switchOk : ∀ (s : State) (b : Bank), P s → b ≠ s.params.bankOf s.accessor.gconfShadow →
      s.memBus.nextWrite .mem = some .ok → P (s.switched b))
    (readByte : ∀ (s : State) (a : LogicalAddr) (v : Byte), P s → s.memBus.nextRead .mem = some (.byte v) →
      P ((s.readDone .mem (physAddr a)).sleep s.params.tEepromSettle))
    (readError : ∀ (s : State) (a : RegAddr) (e : TErr), P s → a = s.params.gconfAddr ∨ (∃ l, a = physAddr l) →
      s.memBus.nextRead .mem = some (.error e) → Q ((s.readDone .mem a).respond (.transportError e)))
    (readSilent : ∀ (s : State) (a : RegAddr), P s → a = s.params.gconfAddr ∨ (∃ l, a = physAddr l) →
      s.memBus.nextRead .mem = none → Q (s.readDone .mem a).hang)
    (switchError : ∀ (s : State) (b : Bank) (e : TErr), P s → s.memBus.nextWrite .mem = some (.error e) →
      Q ((s.switchCall b).respond (.transportError e)))
    (switchSilent : ∀ (s : State) (b : Bank), P s → s.memBus.nextWrite .mem = none → Q (s.switchCall b).hang)
    (success : ∀ (s : State) (vs : List Byte), P s → vs.length ≤ 256 → Q (s.respond (.ok vs)))
    (rangeError : 256 < base.toNat + length.toNat → Q (s.respond .rangeError)) : Q (readBlock base length s) := by
  by_cases h0 : length = 0#16
  · subst h0; rw [readBlock_zero]; exact success s [] h (by simp)
  rcases Nat.lt_or_ge 256 (base.toNat + length.toNat) with hr | hr
  · rw [readBlock_outOfRange s _ _ hr]; exact rangeError hr
  rw [readBlock_inRange s _ _ h0 hr]
  have init : s.lazyInit.Meets (fun _ t => P t) Q := by
    rcases s.lazyInit_cases with ⟨-, h1⟩ | ⟨h1, g, h2, h3⟩ | ⟨h1, e, h2, h3⟩ | ⟨h1, h2, h3⟩
    · rw [h1]; exact h
    · rw [h3]; exact initOk s g h h1 h2
    · rw [h3]; exact readError s _ e h (.inl rfl) h2
    · rw [h3]; exact readSilent s _ h (.inl rfl) h2
  refine (init.andThen fun _ t ht => readAddrs_meets
    (P := fun done todo t => P t ∧ done.length + todo.length = length.toNat)
    (fun _ _ _ s h hb hw => ⟨switchOk s _ h.1 hb hw, h.2⟩)
    (fun _ _ _ s e h _ hw => switchError s _ e h.1 hw)
    (fun _ _ _ s h _ hw => switchSilent s _ h.1 hw)
    (fun _ a _ s v h _ hr => ⟨readByte s a v h.1 hr, by have := h.2; simp at *; omega⟩)
    (fun _ a _ s e h _ hr => readError s _ e h.1 (.inr ⟨a, rfl⟩) hr)
    (fun _ a _ s h _ hr => readSilent s _ h.1 (.inr ⟨a, rfl⟩) hr)
    (blockAddrs base length.toNat) [] t ⟨ht, by simp⟩).finish fun vs t ht => ?_
  exact success t vs ht.1 (by have := ht.2; simp at this; omega)

/-! ### INVALIDATE (R140) -/

@[simp] theorem State.dropShadow_bankValid : s.dropShadow.accessor.bankValid = false := by
  unfold State.dropShadow; split <;> simp_all

end Sys2Proof.Machine
end

