-- ==== Sys2Proof/Laws/Encoding.lean ====
section
/-! SUPPORT. Laws/Encoding: bits of the data encodings: row bytes of a snapshot, the row-select byte, the bank-select bit,
the fields of a command word. -/

namespace Sys2Proof

/-! ### Row bytes (R43, R106) -/

theorem rowByte_getLsbD (v : Snapshot) (r : Row) (j : Nat) :
    (rowByte v r).getLsbD j = (decide (j < 8) && v.getLsbD (r.val * 8 + j)) := by
  simp [rowByte, BitVec.getLsbD_extractLsb']

theorem putRowByte_getLsbD (v : Snapshot) (r : Row) (p : Byte) (k : Nat) (hk : k < 64) :
    (putRowByte v r p).getLsbD k = if k / 8 = r.val then p.getLsbD (k % 8) else v.getLsbD k := by
  have hr := r.isLt
  have hmask : (255#64).getLsbD (k - r.val * 8) = decide (k - r.val * 8 < 8) := by
    have : k - r.val * 8 < 64 := by omega
    generalize k - r.val * 8 = m at *
    revert m; decide
  simp only [putRowByte, BitVec.getLsbD_or, BitVec.getLsbD_and, BitVec.getLsbD_not, BitVec.getLsbD_shiftLeft,
    BitVec.getLsbD_setWidth, hk, hmask, decide_true, Bool.true_and]
  split
  · rename_i h
    have h1 : ¬ k < r.val * 8 := by omega
    have h2 : k - r.val * 8 < 8 := by omega
    have h3 : k - r.val * 8 = k % 8 := by omega
    have h4 : k % 8 < 64 := by omega
    simp [h1, h3, h4]
    omega
  · rename_i h
    rcases Nat.lt_or_ge k (r.val * 8) with h1 | h1
    · simp [h1]
    · have h2 : ¬ k - r.val * 8 < 8 := by omega
      have h3 : p.getLsbD (k - r.val * 8) = false := BitVec.getLsbD_of_ge _ _ (by omega)
      simp [h2, h3]

/-- Filing a byte changes that byte of the snapshot and no other (R106). -/
theorem rowByte_putRowByte (v : Snapshot) (r r' : Row) (p : Byte) :
    rowByte (putRowByte v r p) r' = if r' = r then p else rowByte v r' := by
  have hr' := r'.isLt
  apply BitVec.eq_of_getLsbD_eq
  intro j hj
  rw [rowByte_getLsbD, putRowByte_getLsbD _ _ _ _ (by omega)]
  have h1 : (r'.val * 8 + j) / 8 = r'.val := by omega
  have h2 : (r'.val * 8 + j) % 8 = j := by omega
  rw [h1, h2]
  by_cases h : r' = r
  · simp [h, hj]
  · have : ¬ r'.val = r.val := fun e => h (Fin.ext e)
    simp only [h, this, if_false, rowByte_getLsbD, hj, decide_true, Bool.true_and]

/-- A snapshot is its eight row bytes. -/
theorem snapshot_ext {v w : Snapshot} (h : ∀ r, rowByte v r = rowByte w r) : v = w := by
  apply BitVec.eq_of_getLsbD_eq
  intro k hk
  have h1 := congrArg (fun b : Byte => b.getLsbD (k % 8)) (h ⟨k / 8, by omega⟩)
  simp only [rowByte_getLsbD] at h1
  have h2 : k / 8 * 8 + k % 8 = k := by omega
  have h3 : k % 8 < 8 := by omega
  simpa [h2, h3] using h1

theorem rowByte_or (v w : Snapshot) (r : Row) : rowByte (v ||| w) r = rowByte v r ||| rowByte w r := by
  apply BitVec.eq_of_getLsbD_eq
  intro j hj
  simp only [rowByte_getLsbD, BitVec.getLsbD_or, hj, decide_true, Bool.true_and]

@[simp] theorem rowByte_zero (r : Row) : rowByte 0#64 r = 0#8 := by
  apply BitVec.eq_of_getLsbD_eq
  intro j hj
  simp only [rowByte_getLsbD, BitVec.getLsbD_zero, Bool.and_false]

/-- Bit `k` of a snapshot is bit `k % 8` of its row `k / 8` (R70). -/
theorem getLsbD_eq_rowByte (v : Snapshot) (k : Key) :
    v.getLsbD k.val = (rowByte v ⟨k.val / 8, by have := k.isLt; omega⟩).getLsbD (k.val % 8) := by
  have h2 : k.val / 8 * 8 + k.val % 8 = k.val := by omega
  have h3 : k.val % 8 < 8 := by omega
  simp only [rowByte_getLsbD, h2, h3, decide_true, Bool.true_and]

/-! ### Command words (R80, R131) -/

theorem encode_readblock_append (base : LogicalAddr) (length : BitVec 16) :
    encode (.readblock base length) = (0x20#8 ++ length ++ base).cast rfl := by
  apply BitVec.eq_of_getLsbD_eq
  intro k hk
  have h20 : (0x20000000#32).getLsbD k = (0x20#8).getLsbD (k - 24) ∧ (k < 24 → (0x20000000#32).getLsbD k = false) := by
    revert k; decide
  simp only [encode, BitVec.getLsbD_or, BitVec.getLsbD_shiftLeft, BitVec.getLsbD_setWidth, BitVec.getLsbD_cast,
    BitVec.getLsbD_append, hk, decide_true, Bool.true_and]
  rcases Nat.lt_or_ge k 8 with h8 | h8
  · simp [h8, h20.2 (by omega)]
  · have hb : base.getLsbD k = false := BitVec.getLsbD_of_ge _ _ h8
    rcases Nat.lt_or_ge k 24 with h24 | h24
    · have e : (0x20000000#32).getLsbD k = false := h20.2 h24
      have h1 : ¬ k < 8 := by omega
      have h2 : k - 8 < 16 := by omega
      have h3 : k - 8 < 32 := by omega
      simp [e, h1, h2, h3, hb]
    · have h1 : ¬ k < 8 := by omega
      have h2 : ¬ k - 8 < 16 := by omega
      have hl : length.getLsbD (k - 8) = false := BitVec.getLsbD_of_ge _ _ (by omega)
      have e := h20.1
      simp only [h1, h2, if_false, hl, hb, Bool.and_false, Bool.or_false, Nat.sub_sub]
      simpa using e

theorem encode_readblock_toNat (base : LogicalAddr) (length : BitVec 16) :
    (encode (.readblock base length)).toNat = 0x20 * 2 ^ 24 + length.toNat * 2 ^ 8 + base.toNat := by
  have h1 := base.isLt
  have h2 := length.isLt
  rw [encode_readblock_append]
  simp only [BitVec.toNat_cast, BitVec.toNat_append, BitVec.toNat_ofNat]
  rw [← Nat.shiftLeft_add_eq_or_of_lt h1, ← Nat.shiftLeft_add_eq_or_of_lt h2]
  simp only [Nat.shiftLeft_eq]
  omega

/-- The top byte of a READBLOCK word is 0x20 (R80). -/
theorem encode_readblock_masked (base : LogicalAddr) (length : BitVec 16) :
    encode (.readblock base length) &&& 0xFF000000#32 = 0x20000000#32 := by
  have hm : ∀ w : CmdWord, (w &&& 0xFF000000#32).toNat = w.toNat / 2 ^ 24 * 2 ^ 24 := by
    intro w
    have e : (0xFF000000#32) = BitVec.allOnes 32 <<< 24 := by decide
    have h := w.isLt
    have : w &&& 0xFF000000#32 = (w >>> 24) <<< 24 := by
      apply BitVec.eq_of_getLsbD_eq
      intro k hk
      rw [e]
      simp only [BitVec.getLsbD_and, BitVec.getLsbD_shiftLeft, BitVec.getLsbD_allOnes, BitVec.getLsbD_ushiftRight, hk,
        decide_true, Bool.true_and]
      rcases Nat.lt_or_ge k 24 with h24 | h24
      · simp [h24]
      · have h1 : ¬ k < 24 := by omega
        have h2 : k - 24 < 32 := by omega
        have h3 : 24 + (k - 24) = k := by omega
        simp only [h1, h2, h3, decide_true, decide_false, Bool.not_false, Bool.true_and, Bool.and_true]
    rw [this, BitVec.toNat_shiftLeft, BitVec.toNat_ushiftRight, Nat.shiftLeft_eq, Nat.shiftRight_eq_div_pow]
    omega
  have h1 := base.isLt
  have h2 := length.isLt
  apply BitVec.eq_of_toNat_eq
  rw [hm, encode_readblock_toNat]
  simp only [BitVec.toNat_ofNat]
  omega

end Sys2Proof
end

