-- ==== Sys2Proof/Laws/KeyScan.lean ====
section
/-! SUPPORT. Laws/KeyScan: what ENCODE, the voter, the scanner's steps and SCAN do. -/

namespace Sys2Proof.Machine

/-! ### ENCODE (R160) -/

theorem lowestSet_eq_head (w : Snapshot) :
    lowestSet w = ((List.finRange 64).filter fun i => w.getLsbD i.val).head? := by
  rw [List.head?_filter]; rfl

theorem one_shiftLeft_getLsbD (i k : Key) : (1#64 <<< i.val).getLsbD k.val = decide (k = i) := by
  have hk := k.isLt
  have hi := i.isLt
  simp only [BitVec.getLsbD_shiftLeft, BitVec.getLsbD_one, hk, decide_true, Bool.true_and, Fin.ext_iff]
  rw [Bool.eq_iff_iff]
  simp
  omega

/-- Clearing the lowest set bit takes the first element off the list of set positions. -/
theorem filter_clear_lowest (w : Snapshot) (i : Key) (l : List Key) (hl : l.Nodup) (rest : List Key)
    (h : l.filter (fun k => w.getLsbD k.val) = i :: rest) :
    l.filter (fun k => (w &&& ~~~(1#64 <<< i.val)).getLsbD k.val) = rest := by
  have hbit : ∀ k : Key, (w &&& ~~~(1#64 <<< i.val)).getLsbD k.val = (w.getLsbD k.val && decide (k ≠ i)) := by
    intro k
    have hk := k.isLt
    simp only [BitVec.getLsbD_and, BitVec.getLsbD_not, hk, one_shiftLeft_getLsbD, decide_true, Bool.true_and, ne_eq, decide_not]
  have hnd : (i :: rest).Nodup := h ▸ hl.filter _
  calc l.filter (fun k => (w &&& ~~~(1#64 <<< i.val)).getLsbD k.val)
      = (l.filter (fun k => w.getLsbD k.val)).filter (fun k => decide (k ≠ i)) := by
        rw [List.filter_filter]; exact List.filter_congr fun k _ => by rw [hbit, Bool.and_comm]
    _ = rest := by
        rw [h, List.filter_cons_of_neg (by simp), List.filter_eq_self]
        intro k hk
        have : k ≠ i := fun e => (List.nodup_cons.mp hnd).1 (e ▸ hk)
        simpa using this

/-- The loop lists the lowest set positions, as many as its fuel allows (R160). -/
theorem encodeLoop_eq_take (fuel : Nat) (w : Snapshot) :
    encodeLoop fuel w = ((List.finRange 64).filter fun i => w.getLsbD i.val).take fuel := by
  induction fuel generalizing w with
  | zero => simp [encodeLoop]
  | succ fuel ih =>
    rw [encodeLoop, lowestSet_eq_head]
    rcases h : (List.finRange 64).filter (fun i => w.getLsbD i.val) with _ | ⟨i, rest⟩
    · rw [h]; rfl
    · rw [h]
      simp only [List.head?_cons, List.take_succ_cons, List.cons.injEq, true_and]
      rw [ih, filter_clear_lowest w i _ (List.nodup_finRange 64) rest h]

/-! ### The voter (R107) -/

theorem foldl_or_getLsbD (l : List Snapshot) (acc : Snapshot) (k : Nat) :
    (l.foldl (· ||| ·) acc).getLsbD k = (acc.getLsbD k || l.any (·.getLsbD k)) := by
  induction l generalizing acc with
  | nil => simp
  | cons v l ih => simp only [List.foldl_cons, ih, BitVec.getLsbD_or, List.any_cons, Bool.or_assoc]

/-- A bit of the vote is set exactly when it is set in some slot (R107). -/
theorem voter_getLsbD {n : Nat} (hist : Vector Snapshot n) (k : Nat) :
    (voter hist).getLsbD k = true ↔ ∃ j : Fin n, (hist.get j).getLsbD k = true := by
  rw [voter, foldl_or_getLsbD]
  simp only [BitVec.getLsbD_zero, Bool.false_or, List.any_eq_true, Vector.mem_toList_iff]
  constructor
  · rintro ⟨v, hv, hk⟩
    obtain ⟨i, hi, rfl⟩ := Vector.mem_iff_getElem.mp hv
    exact ⟨⟨i, hi⟩, hk⟩
  · rintro ⟨j, hk⟩
    exact ⟨hist.get j, Vector.mem_iff_getElem.mpr ⟨j.val, j.isLt, rfl⟩, hk⟩

/-! ### The scanner's steps (R106 to R111) -/

section
variable {n : Nat} (sc : Scanner n) (c : Byte)

@[simp] theorem Scanner.fileSample_stable : (sc.fileSample c).stable = sc.stable := rfl
@[simp] theorem Scanner.fileSample_row : (sc.fileSample c).row = sc.row := rfl
@[simp] theorem Scanner.fileSample_slot : (sc.fileSample c).slot = sc.slot := rfl
@[simp] theorem Scanner.commit_hist : sc.commit.hist = sc.hist := rfl
@[simp] theorem Scanner.commit_stable : sc.commit.stable = voter sc.hist := rfl
@[simp] theorem Scanner.commit_row : sc.commit.row = sc.row + 1 := rfl
@[simp] theorem Scanner.commit_slot : sc.commit.slot = sc.nextSlot := rfl
@[simp] theorem Scanner.fileSample_nextRow : (sc.fileSample c).nextRow = sc.row + 1 := rfl
@[simp] theorem Scanner.fileSample_nextSlot : (sc.fileSample c).nextSlot = sc.nextSlot := rfl

theorem Scanner.fileSample_hist_get (j : Fin n) :
    (sc.fileSample c).hist.get j =
      if j = sc.slot then putRowByte (sc.hist.get sc.slot) sc.row (~~~c) else sc.hist.get j := by
  have : (sc.slot.val = j.val) = (j = sc.slot) := by
    rw [Fin.ext_iff]; exact propext eq_comm
  simp only [Scanner.fileSample, pressedMask, Vector.get_eq_getElem, Vector.getElem_set, this]

/-- SCAN files the sample in one byte of one slot and nowhere else (R106). -/
theorem Scanner.fileSample_rowByte (j : Fin n) (r : Row) :
    rowByte ((sc.fileSample c).hist.get j) r =
      if j = sc.slot ∧ r = sc.row then ~~~c else rowByte (sc.hist.get j) r := by
  rw [Scanner.fileSample_hist_get]
  by_cases hj : j = sc.slot
  · subst hj; simp [rowByte_putRowByte]
  · simp [hj]

/-- A second sample filed at the same place replaces the first (R114). -/
theorem Scanner.fileSample_fileSample (c' : Byte) : (sc.fileSample c).fileSample c' = sc.fileSample c' := by
  have : (sc.fileSample c).hist.get sc.slot = putRowByte (sc.hist.get sc.slot) sc.row (~~~c) := by
    simp [Scanner.fileSample_hist_get]
  have hput : ∀ v p p', putRowByte (putRowByte v sc.row p) sc.row p' = putRowByte v sc.row p' := by
    intro v p p'
    exact snapshot_ext fun r => by simp only [rowByte_putRowByte]; split <;> rfl
  cases sc
  simp only [Scanner.fileSample, Scanner.mk.injEq, and_true] at *
  rw [this, hput, Vector.set_set]

end

/-! ### SCAN (R103, R113, R114) -/

section
variable (s : State)

/-- The SCAN that succeeds (R103). -/
theorem execScan_ok (c : Byte) (hr : s.keyBus.nextRead .key = some (.byte c))
    (hw : s.keyBus.afterRead.nextWrite .key = some .ok) :
    execScan s = .next { s with
      scanner := (s.scanner.fileSample c).commit
      keyBus := s.keyBus.afterRead.afterWrite
      trace := s.trace ++ [.read .key s.params.colInAddr (some (.byte c)),
        .write .key s.params.rowOutAddr (rowSelect (s.scanner.row + 1)) (some .ok)]
      responses := s.responses ++ [.ok ((s.scanner.fileSample c).events.map KeyEvent.byte)] } := by
  simp only [execScan, scanBody, State.memRead_byte s .key s.params.colInAddr c hr, Progress.andThen_going]
  rw [State.memWrite_ok _ _ _ _ (by simpa using hw)]
  simp [State.readDone, State.writeDone, State.setBus, State.bus, State.record, State.respond, hr, hw]

/-- The SCAN whose column read fails (R113). -/
theorem execScan_readError (e : TErr) (hr : s.keyBus.nextRead .key = some (.error e)) :
    execScan s = .next { s with
      keyBus := s.keyBus.afterRead
      trace := s.trace ++ [.read .key s.params.colInAddr (some (.error e))]
      responses := s.responses ++ [.transportError e] } := by
  simp [execScan, scanBody, State.memRead_error s .key s.params.colInAddr e hr, State.readDone, State.setBus, State.bus,
    State.record, State.respond, hr]

/-- The SCAN whose column read is not answered (R41). -/
theorem execScan_readSilent (hr : s.keyBus.nextRead .key = none) :
    execScan s = .next { s with
      keyBus := s.keyBus.afterRead
      trace := s.trace ++ [.read .key s.params.colInAddr none]
      phase := .unfinished } := by
  simp [execScan, scanBody, State.memRead_silent s .key s.params.colInAddr hr, State.readDone, State.setBus, State.bus,
    State.record, State.hang, hr]

/-- The SCAN whose row-select write fails after the column read answered (R114). -/
theorem execScan_writeError (c : Byte) (e : TErr) (hr : s.keyBus.nextRead .key = some (.byte c))
    (hw : s.keyBus.afterRead.nextWrite .key = some (.error e)) :
    execScan s = .next { s with
      scanner := s.scanner.fileSample c
      keyBus := s.keyBus.afterRead.afterWrite
      trace := s.trace ++ [.read .key s.params.colInAddr (some (.byte c)),
        .write .key s.params.rowOutAddr (rowSelect (s.scanner.row + 1)) (some (.error e))]
      responses := s.responses ++ [.transportError e] } := by
  simp only [execScan, scanBody, State.memRead_byte s .key s.params.colInAddr c hr, Progress.andThen_going]
  rw [State.memWrite_error _ _ _ _ e (by simpa using hw)]
  simp [State.readDone, State.writeDone, State.setBus, State.bus, State.record, State.respond, hr, hw]

/-- The SCAN whose row-select write is not answered (R41). -/
theorem execScan_writeSilent (c : Byte) (hr : s.keyBus.nextRead .key = some (.byte c))
    (hw : s.keyBus.afterRead.nextWrite .key = none) :
    execScan s = .next { s with
      scanner := s.scanner.fileSample c
      keyBus := s.keyBus.afterRead.afterWrite
      trace := s.trace ++ [.read .key s.params.colInAddr (some (.byte c)),
        .write .key s.params.rowOutAddr (rowSelect (s.scanner.row + 1)) none]
      phase := .unfinished } := by
  simp only [execScan, scanBody, State.memRead_byte s .key s.params.colInAddr c hr, Progress.andThen_going]
  rw [State.memWrite_silent _ _ _ _ (by simpa using hw)]
  simp [State.readDone, State.writeDone, State.setBus, State.bus, State.record, State.hang, hr, hw]

end

end Sys2Proof.Machine
end

