-- ==== Sys2Proof/Laws/PerInstr.lean ====
section
/-! SUPPORT. Laws/PerInstr: statements for all instructions, one lemma a constructor. -/

/-- The word of an instruction is a command word, covered by exactly the opcode map's row of its mnemonic (R81). -/
def Sys2Proof.Laws.WordOfOneRow.Statement (i : Sys2Proof.Instr) : Prop :=
  ∃ row, Sys2Proof.opcodeMap.filter (·.covers (Sys2Proof.encode i)) = [row] ∧
    row.mnemonic = (match i with
      | .scan => "SCAN"
      | .readblock _ _ => "READBLOCK"
      | .invalidate => "INVALIDATE")

theorem Sys2Proof.Laws.WordOfOneRow.scan : Sys2Proof.Laws.WordOfOneRow.Statement .scan :=
  ⟨⟨"SCAN", 0x10000000#32, 0xFFFFFFFF#32⟩, by decide, rfl⟩

theorem Sys2Proof.Laws.WordOfOneRow.readblock (base : Sys2Proof.LogicalAddr) (length : BitVec 16) :
    Sys2Proof.Laws.WordOfOneRow.Statement (.readblock base length) := by
  refine ⟨⟨"READBLOCK", 0x20000000#32, 0xFF000000#32⟩, ?_, rfl⟩
  have htop := Sys2Proof.encode_readblock_toNat base length
  have hand := Sys2Proof.encode_readblock_masked base length
  have hne : ∀ p : BitVec 32, p.toNat / 2 ^ 24 ≠ 0x20 →
      (Sys2Proof.encode (.readblock base length) &&& 0xFFFFFFFF#32 == p) = false := by
    intro p hp
    have : Sys2Proof.encode (.readblock base length) &&& 0xFFFFFFFF#32 = Sys2Proof.encode (.readblock base length) :=
      BitVec.and_allOnes
    rw [this, beq_eq_false_iff_ne]
    rintro rfl
    have h1 := base.isLt
    have h2 := length.isLt
    omega
  simp only [Sys2Proof.opcodeMap, Sys2Proof.OpcodeRow.covers, List.filter]
  rw [hne 0x10000000#32 (by decide), hne 0x30000000#32 (by decide)]
  simp [hand]

theorem Sys2Proof.Laws.WordOfOneRow.invalidate : Sys2Proof.Laws.WordOfOneRow.Statement .invalidate :=
  ⟨⟨"INVALIDATE", 0x30000000#32, 0xFFFFFFFF#32⟩, by decide, rfl⟩
end

