-- ==== Sys2Proof/Laws/Step.lean ====
section
/-! SUPPORT. Laws/Step: what one step can do, said once. -/

namespace Sys2Proof.Machine

variable (s : State)

/-- Everything SCAN can do (R103, R113, R114, R41); the lemmas `execScan_…` give the state after. -/
theorem execScan_cases :
    (∃ c, s.keyBus.nextRead .key = some (.byte c) ∧ s.keyBus.afterRead.nextWrite .key = some .ok) ∨
    (∃ e, s.keyBus.nextRead .key = some (.error e)) ∨
    (∃ c e, s.keyBus.nextRead .key = some (.byte c) ∧ s.keyBus.afterRead.nextWrite .key = some (.error e)) ∨
    s.keyBus.nextRead .key = none ∨
    (∃ c, s.keyBus.nextRead .key = some (.byte c) ∧ s.keyBus.afterRead.nextWrite .key = none) := by
  rcases hr : s.keyBus.nextRead .key with _ | (c | e)
  · exact .inr (.inr (.inr (.inl rfl)))
  · rcases hw : s.keyBus.afterRead.nextWrite .key with _ | (_ | e)
    · exact .inr (.inr (.inr (.inr ⟨c, rfl, rfl⟩)))
    · exact .inl ⟨c, rfl, rfl⟩
    · exact .inr (.inr (.inl ⟨c, e, rfl, rfl⟩))
  · exact .inr (.inl ⟨e, rfl⟩)

/-- What INVALIDATE does (R140). -/
theorem execInvalidate_eq : execInvalidate s = .next (s.dropShadow.respond (.ok [])) := rfl

/-- Everything a step that answers a next state can have done: nothing (an idle block, no action), reset, a command, or the
refusal of a word (R184, R200, R33, R82). -/
theorem step_cases {t : State} (h : step s = .next t) :
    s.phase = .idle ∧
    ((s.host = [] ∧ t = s) ∨
     (∃ rest, s.host = .reset :: rest ∧ t = State.resetBlock { s with host := rest }) ∨
     (∃ w i rest, s.host = .present w :: rest ∧ decode w = .command i ∧ exec i { s with host := rest } = .next t) ∨
     (∃ w why rest, s.host = .present w :: rest ∧ decode w = .illegal why ∧
       t = State.refuseWord { s with host := rest })) := by
  unfold step at h
  split at h
  · cases h
  · rename_i hp
    refine ⟨hp, ?_⟩
    rcases hh : s.host with _ | ⟨w | _, rest⟩
    · simp only [State.fetch, hh] at h; cases h; exact .inl ⟨rfl, rfl⟩
    · simp only [State.fetch, hh] at h
      rcases hd : decode w with i | why
      · rw [hd] at h; exact .inr (.inr (.inl ⟨w, i, rest, rfl, hd, h⟩))
      · rw [hd] at h; cases h; exact .inr (.inr (.inr ⟨w, why, rest, rfl, hd, rfl⟩))
    · simp only [State.fetch, hh] at h; cases h; exact .inr (.inl ⟨rest, rfl, rfl⟩)

/-- An invariant of the machine, packaged once: reset and refusing a word keep it, taking a host action does not matter to
it, and each of the three commands keeps it. -/
theorem step_keeps {I : State → Prop}
    (hhost : ∀ (s : State) rest, I s → I { s with host := rest })
    (hreset : ∀ s : State, I s → I s.resetBlock)
    (hrefuse : ∀ s : State, I s → I s.refuseWord)
    (hscan : ∀ s t : State, I s → execScan s = .next t → I t)
    (hread : ∀ (s : State) base length, I s → I (readBlock base length s))
    (hinvalidate : ∀ s : State, I s → I (s.dropShadow.respond (.ok [])))
    {s t : State} (hs : I s) (h : step s = .next t) : I t := by
  obtain ⟨-, ⟨-, rfl⟩ | ⟨rest, -, rfl⟩ | ⟨w, i, rest, -, -, he⟩ | ⟨w, why, rest, -, -, rfl⟩⟩ := step_cases s h
  · exact hs
  · exact hreset _ (hhost _ _ hs)
  · cases i with
    | scan => exact hscan _ _ (hhost _ _ hs) he
    | readblock base length => cases he; exact hread _ _ _ (hhost _ _ hs)
    | invalidate => cases he; exact hinvalidate _ (hhost _ _ hs)
  · exact hrefuse _ (hhost _ _ hs)

end Sys2Proof.Machine
end

