-- ==== Sys2Proof/Laws/Trace.lean ====
section
/-! SUPPORT. Laws/Trace: what the readings of the trace in Safety give when calls are added, one lemma each; and the
fields of a state whose errors are renamed. -/

namespace Sys2Proof.Machine

variable (x y : List Call)

theorem lastGconf_append (p : Params) : lastGconf p (x ++ y) = y.foldl (gconfStep p) (lastGconf p x) := by
  simp [lastGconf]

theorem lastRowWriteOk_append : lastRowWriteOk (x ++ y) = y.foldl rowWriteStep (lastRowWriteOk x) := by
  simp [lastRowWriteOk]

theorem rowWrites_append : rowWrites (x ++ y) = rowWrites x ++ rowWrites y := by simp [rowWrites]

/-- Calls that complete no sample leave the samples as they are. -/
theorem samples_append_of_none (h : ∀ acc, (y.foldl sampleStep acc).2 = acc.2) : samples (x ++ y) = samples x := by
  rw [samples, List.foldl_append, h]; rfl

/-- The calls of a successful SCAN add its sample (R103, R117). -/
theorem samples_append_scan (a b : RegAddr) (c v : Byte) :
    samples (x ++ [.read .key a (some (.byte c)), .write .key b v (some .ok)]) = samples x ++ [pressedMask c] := by
  simp [samples, sampleStep]

theorem every_append {α : Type} (m r : Nat) (xs : List α) (a : α) :
    every m r (xs ++ [a]) = every m r xs ++ if xs.length % m = r then [a] else [] := by
  unfold every
  rw [List.zipIdx_append, List.filter_append, List.map_append]
  congr 1
  simp
  split <;> simp [*]

/-- A bit of a row's byte of the vote is set exactly when it is set in that byte of some slot (R107). -/
theorem rowByte_voter_getLsbD {n : Nat} (hist : Vector Snapshot n) (r : Row) (m : Nat) (hm : m < 8) :
    (rowByte (voter hist) r).getLsbD m = true ↔ ∃ j, (rowByte (hist.get j) r).getLsbD m = true := by
  simp only [rowByte_getLsbD, hm, decide_true, Bool.true_and, voter_getLsbD]

/-- Filing a sample leaves the vote of the other rows as it was (R106, R107). -/
theorem rowByte_voter_fileSample {n : Nat} (sc : Scanner n) (c : Byte) (r : Row) (hr : r ≠ sc.row) :
    rowByte (voter (sc.fileSample c).hist) r = rowByte (voter sc.hist) r := by
  have same : ∀ j, rowByte ((sc.fileSample c).hist.get j) r = rowByte (sc.hist.get j) r := fun j => by
    rw [Scanner.fileSample_rowByte, if_neg fun h => hr h.2]
  refine BitVec.eq_of_getLsbD_eq fun m hm => ?_
  rw [Bool.eq_iff_iff, rowByte_voter_getLsbD _ _ _ hm, rowByte_voter_getLsbD _ _ _ hm]
  simp only [same]

/-! ### Renaming errors (D18) -/

section
variable (f : TErr → TErr) (s : State) (t : Transport) (d : Device)

@[simp] theorem State.mapErr_scanner : (s.mapErr f).scanner = s.scanner := rfl
@[simp] theorem State.mapErr_accessor : (s.mapErr f).accessor = s.accessor := rfl
@[simp] theorem State.mapErr_phase : (s.mapErr f).phase = s.phase := rfl
@[simp] theorem State.mapErr_trace : (s.mapErr f).trace = s.trace.map (Call.mapErr f) := rfl
@[simp] theorem State.mapErr_responses : (s.mapErr f).responses = s.responses.map (Response.mapErr f) := rfl
@[simp] theorem State.mapErr_host : (s.mapErr f).host = s.host := rfl
@[simp] theorem State.mapErr_params : (s.mapErr f).params = s.params := rfl
@[simp] theorem State.mapErr_shadowDraws : (s.mapErr f).shadowDraws = s.shadowDraws := rfl
@[simp] theorem State.mapErr_bus : (s.mapErr f).bus d = (s.bus d).mapErr f := by cases d <;> rfl
@[simp] theorem Transport.mapErr_drawn : (t.mapErr f).drawn = t.drawn := rfl
@[simp] theorem Response.mapErr_ok (vs : List Byte) : (Response.ok vs).mapErr f = .ok vs := rfl
@[simp] theorem Response.mapErr_rangeError : Response.rangeError.mapErr f = .rangeError := rfl
@[simp] theorem Response.mapErr_transportError (e : TErr) :
    (Response.transportError e).mapErr f = .transportError (f e) := rfl

/-- A listed answer to a read is renamed; an unlisted one is drawn. -/
theorem Transport.nextRead_mapErr (h : t.afterRead.drawn = t.drawn) :
    (t.mapErr f).nextRead d = (t.nextRead d).map (renameRead f) ∧ (t.mapErr f).afterRead = t.afterRead.mapErr f := by
  rcases t with ⟨_ | ⟨a, rest⟩, writes, drawn⟩
  · simp [Transport.afterRead] at h
  · exact ⟨rfl, rfl⟩

/-- A listed answer to a write is renamed; an unlisted one is drawn. -/
theorem Transport.nextWrite_mapErr (h : t.afterWrite.drawn = t.drawn) :
    (t.mapErr f).nextWrite d = (t.nextWrite d).map (renameWrite f) ∧ (t.mapErr f).afterWrite = t.afterWrite.mapErr f := by
  rcases t with ⟨reads, _ | ⟨a, rest⟩, drawn⟩
  · simp [Transport.afterWrite] at h
  · exact ⟨rfl, rfl⟩

end

end Sys2Proof.Machine
end

