-- ==== Sys2Proof/Tests/Slice0.lean ====
section
/-! SUPPORT. Tests/Slice0: the model's own tests, expectations taken from spec/95_test_vectors.md and spec/30_encoding.md,
and for each obligation with hypotheses a witness that meets them. -/

open Sys2Proof Sys2Proof.Machine

namespace Sys2Proof.Tests

/-! ### Test states -/

/-- The test configuration TC of 95_test_vectors.md (BANK_BIT 6, polarity the default, direct); the addresses and durations are arbitrary:
COL_IN 0x10, ROW_OUT 0x11, GCONF 0x05, Te 2, Ts 3. -/
def tc : Params :=
  { colIn := 0x10#8, rowOutGap := 0, gconfLow := 5#7, bankBit := 6, eepromSettlePred := 1, switchSettle := 3 }

/-- Reset, with the parameters TC. -/
def fresh : State := { State.reset with params := tc }

/-- A state of the scanner, with what its transport will answer. -/
def keys (h0 h1 stable : Snapshot) (row : Row) (slot : Fin 2) (c : ReadAnswer) (w : WriteAnswer) : State :=
  { fresh with
    scanner := { hist := #v[h0, h1], stable := stable, row := row, slot := slot }
    keyBus := { reads := [some c], writes := [some w], drawn := 0 } }

/-- A state of the accessor, with what its transport will answer. -/
def memory (valid : Bool) (shadow : Byte) (reads : List ReadAnswer) (writes : List WriteAnswer) : State :=
  { fresh with
    accessor := { gconfShadow := shadow, bankValid := valid }
    memBus := { reads := reads.map some, writes := writes.map some, drawn := 0 } }

/-- The state a step or command answers, if it answers one. -/
def after? : Host.Outcome State Fault Refusal → Option State
  | .next t => some t
  | .fault _ => none
  | .refused _ => none

/-- The state a step or command answers. -/
def after (o : Host.Outcome State Fault Refusal) : State := (after? o).getD fresh

/-- What a SCAN shows. -/
structure Shown where
  hist : List Snapshot
  stable : Snapshot
  row : Row
  slot : Fin 2
  written : List Byte
  responses : List Response
deriving DecidableEq

/-- History, stable and cursor after a SCAN, the values written, the responses. -/
def scanned (s : State) : Shown :=
  let t := after (exec .scan s)
  ⟨t.scanner.hist.toList, t.scanner.stable, t.scanner.row, t.scanner.slot,
    t.trace.filterMap (fun c => match c with
      | .write .key _ v _ => some v
      | _ => none),
    t.responses⟩

/-- What a READBLOCK shows: trace, response, shadow and its validity. -/
def blockRead (base : LogicalAddr) (length : BitVec 16) (s : State) : List Call × List Response × Byte × Bool :=
  let t := after (exec (.readblock base length) s)
  (t.trace, t.responses, t.accessor.gconfShadow, t.accessor.bankValid)

/-- `R MEM[a] -> v`, `S Te`. -/
def rd (a : RegAddr) (v : Byte) : List Call := [.read .mem a (some (.byte v)), .sleep 2]

/-- `W MEM[GCONF] <- g -> ok`, `S Ts`. -/
def sw (g : Byte) : List Call := [.write .mem 0x05#8 g (some .ok), .sleep 3]

/-- An error of a transport, the one every platform's TErr has (log 4); it stands for E1 to E5 of the vectors. -/
def err : TErr := ⟨0, .inl rfl⟩

/-! ### WellFormed: an ill-formed word for each check -/

/-- op 0x0, 0x4 and 0xF are no operation (R82); 0x1 is one. -/
theorem test_opKnown : CmdWord.opKnown 0x00000000#32 = false ∧ CmdWord.opKnown 0x40000000#32 = false ∧
    CmdWord.opKnown 0xFFFFFFFF#32 = false ∧ CmdWord.opKnown 0x10000000#32 = true := by decide

/-- Bits 27:0 of format Z, and bits 27:24 but not 23:0 of format B, must be zero (R80, 93 V5). -/
theorem test_zeroField : CmdWord.zeroFieldOk 0x10000001#32 = false ∧ CmdWord.zeroFieldOk 0x30000100#32 = false ∧
    CmdWord.zeroFieldOk 0x21001478#32 = false ∧ CmdWord.zeroFieldOk 0x28000000#32 = false ∧
    CmdWord.zeroFieldOk 0x20FFFFFF#32 = true := by decide

/-- A word that fails either check is refused by the map (R82). -/
theorem test_wellFormed : CmdWord.wellFormed 0x18000000#32 = false ∧ CmdWord.wellFormed 0x38000000#32 = false ∧
    CmdWord.wellFormed 0x24000000#32 = false ∧ CmdWord.wellFormed 0x50000000#32 = false ∧
    CmdWord.wellFormed 0x20FFFFFF#32 = true := by decide

/-! ### Decoding (R80, R81, R85; the words are written bit by bit from the formats) -/

theorem test_decode_scan : decode 0b0001_0000_0000_0000_0000_0000_0000_0000#32 = .command .scan := by decide

/-- op 0010, zero 0000, length 0000000000010100 (20), base 01111000 (120). -/
theorem test_decode_readblock :
    decode 0b0010_0000_0000_0000_0001_0100_0111_1000#32 = .command (.readblock 120#8 20#16) := by decide

theorem test_decode_invalidate : decode 0b0011_0000_0000_0000_0000_0000_0000_0000#32 = .command .invalidate := by decide

/-- The encoder against R87's words. -/
theorem test_encode : encode .scan = 0x10000000#32 ∧ encode .invalidate = 0x30000000#32 ∧
    encode (.readblock 200#8 10#16) = 0x20000AC8#32 ∧ encode (.readblock 0#8 256#16) = 0x20010000#32 ∧
    encode (.readblock 255#8 1#16) = 0x200001FF#32 := by decide

/-- The table's numbering: 32 bits, one word; a word of fewer bits has zeros above. -/
theorem test_decodeTableWord : decodeTableWord 32 0x20000AC8 = some (.readblock 200#8 10#16) ∧
    decodeTableWord 32 0x40000000 = none ∧ decodeTableWord 24 0x20000AC8 = none := by decide

/-! ### Encodings, translation, range check, ENCODE (V-B, V-T, V-R, V-E) -/

/-- V-B, and bit 7 and bit 0 as the bank bit; the polarity is direct where nothing else is said (R7). -/
theorem test_bankSelect :
    tc.polarity = .direct ∧
    tc.withBank 0x21#8 true = 0x61#8 ∧ tc.withBank 0x61#8 false = 0x21#8 ∧ tc.bankOf 0x61#8 = true ∧
    Params.withBank { tc with polarity := .inverted } 0x21#8 false = 0x61#8 ∧
    Params.bankOf { tc with polarity := .inverted } 0x21#8 = true ∧
    Params.withBank { tc with bankBit := 0 } 0xFE#8 true = 0xFF#8 ∧
    Params.withBank { tc with bankBit := 7 } 0xFF#8 false = 0x7F#8 ∧
    Params.withBank { tc with bankBit := 7, polarity := .inverted } 0x00#8 false = 0x80#8 := by decide

/-- V-T. -/
theorem test_translation :
    [0#8, 1#8, 120#8, 127#8, 128#8, 139#8, 200#8, 255#8].map (fun a => (targetBank a, bankOffset a, physAddr a)) =
      [(false, 0x00#8, 0x80#8), (false, 0x01#8, 0x81#8), (false, 0x78#8, 0xF8#8), (false, 0x7F#8, 0xFF#8),
       (true, 0x00#8, 0x80#8), (true, 0x0B#8, 0x8B#8), (true, 0x48#8, 0xC8#8), (true, 0x7F#8, 0xFF#8)] := by decide

/-- V-R. -/
theorem test_rangeCheck :
    [(0#8, 256#16), (0#8, 257#16), (1#8, 256#16), (255#8, 1#16), (255#8, 2#16), (128#8, 128#16), (128#8, 129#16),
      (200#8, 56#16), (200#8, 57#16), (0#8, 65535#16)].map (fun x => outOfRange x.1 x.2) =
      [false, true, true, false, true, false, true, false, true, true] := by decide

/-- V-E. -/
theorem test_encodeMask :
    encodeMask 0#64 = [] ∧ encodeMask 0xA#64 = [1, 3] ∧ encodeMask 0x8000000000000001#64 = [0, 63] ∧
    encodeMask 0xFF00000000000000#64 = [56, 57, 58, 59, 60, 61, 62, 63] := by decide +kernel

/-- R84's examples. -/
theorem test_eventByte : KeyEvent.byte ⟨10, .down⟩ = 0x4A#8 ∧ KeyEvent.byte ⟨10, .up⟩ = 0x0A#8 ∧
    KeyEvent.byte ⟨63, .down⟩ = 0x7F#8 ∧ KeyEvent.byte ⟨0, .up⟩ = 0x00#8 := by decide

/-! ### SCAN (V-S) -/

/-- S-4, S-5, S-7, S-8, S-13. -/
theorem test_scan :
    scanned (keys 0 0 0 7 0 (.byte 0x7F#8) .ok) =
      ⟨[0x8000000000000000#64, 0], 0x8000000000000000#64, 0, 1, [0xFE#8], [.ok [0x7F#8]]⟩ ∧
    scanned (keys 0 0 0 7 1 (.byte 0x7F#8) .ok) =
      ⟨[0, 0x8000000000000000#64], 0x8000000000000000#64, 0, 0, [0xFE#8], [.ok [0x7F#8]]⟩ ∧
    scanned (keys 0x200 0 0x200 1 0 (.byte 0xFF#8) .ok) = ⟨[0, 0], 0, 2, 0, [0xFB#8], [.ok [0x09#8]]⟩ ∧
    scanned (keys 0 0x200 0x200 1 1 (.byte 0xFE#8) .ok) = ⟨[0, 0x100], 0x100, 2, 1, [0xFB#8], [.ok [0x48#8, 0x09#8]]⟩ ∧
    scanned (keys 0xFFFFFFFFFFFFFFFF#64 0 0xFFFFFFFFFFFFFFFF#64 7 0 (.byte 0xFF#8) .ok) =
      ⟨[0x00FFFFFFFFFFFFFF#64, 0], 0x00FFFFFFFFFFFFFF#64, 0, 1, [0xFE#8],
        [.ok [56#8, 57#8, 58#8, 59#8, 60#8, 61#8, 62#8, 63#8]]⟩ := by decide +kernel

/-- S-9, S-10, and S-11 from the state S-10 leaves. -/
theorem test_scan_failures :
    scanned (keys 0 0 0 2 0 (.error err) .ok) = ⟨[0, 0], 0, 2, 0, [], [.transportError err]⟩ ∧
    scanned (keys 0x400 0x400 0x400 1 0 (.byte 0xFF#8) (.error err)) =
      ⟨[0, 0x400], 0x400, 1, 0, [0xFB#8], [.transportError err]⟩ ∧
    scanned (keys 0 0x400 0x400 1 0 (.byte 0xFE#8) .ok) = ⟨[0x100, 0x400], 0x500, 2, 0, [0xFB#8], [.ok [0x48#8]]⟩ := by
  decide +kernel

/-- V-S with N = 1 (R122 e): the scanner of one slot. -/
theorem test_scan_oneSlot :
    let sc : Scanner 1 := { hist := #v[0#64], stable := 0, row := 1, slot := 0 }
    let sc' := (sc.fileSample 0xFB#8).commit
    (sc.fileSample 0xFB#8).events = [⟨10, .down⟩] ∧ sc' = { hist := #v[0x400#64], stable := 0x400, row := 2, slot := 0 } ∧
    (Scanner.fileSample { sc' with row := 1 } 0xFF#8).events = [⟨10, .up⟩] := by decide +kernel

/-! ### READBLOCK (V-M) -/

/-- M-2, M-3 and M-4: lazy initialisation, two switches, the last address. -/
theorem test_readblock :
    blockRead 0#8 3#16 (memory false 0#8 [.byte 0x61#8, .byte 0x03#8, .byte 0x0A#8, .byte 0x11#8] [.ok]) =
      (.read .mem 0x05#8 (some (.byte 0x61#8)) :: sw 0x21#8 ++ rd 0x80#8 0x03#8 ++ rd 0x81#8 0x0A#8 ++ rd 0x82#8 0x11#8,
        [.ok [0x03#8, 0x0A#8, 0x11#8]], 0x21#8, true) ∧
    blockRead 126#8 4#16 (memory true 0x61#8 [.byte 0x75#8, .byte 0x7C#8, .byte 0x83#8, .byte 0x8A#8] [.ok, .ok]) =
      (sw 0x21#8 ++ rd 0xFE#8 0x75#8 ++ rd 0xFF#8 0x7C#8 ++ sw 0x61#8 ++ rd 0x80#8 0x83#8 ++ rd 0x81#8 0x8A#8,
        [.ok [0x75#8, 0x7C#8, 0x83#8, 0x8A#8]], 0x61#8, true) ∧
    blockRead 255#8 1#16 (memory true 0x00#8 [.byte 0xFC#8] [.ok]) =
      (sw 0x40#8 ++ rd 0xFF#8 0xFC#8, [.ok [0xFC#8]], 0x40#8, true) := by decide +kernel

/-- M-5, M-6, M-7 and M-8: what each failure leaves. -/
theorem test_readblock_failures :
    blockRead 255#8 2#16 (memory true 0x00#8 [] []) = ([], [.rangeError], 0x00#8, true) ∧
    blockRead 126#8 4#16 (memory true 0x00#8 [.byte 0x75#8, .byte 0x7C#8] [.error err]) =
      (rd 0xFE#8 0x75#8 ++ rd 0xFF#8 0x7C#8 ++ [.write .mem 0x05#8 0x40#8 (some (.error err))],
        [.transportError err], 0x00#8, true) ∧
    (blockRead 0#8 2#16 (memory false 0x00#8 [.error err] [])).2.2.2 = false ∧
    blockRead 127#8 3#16 (memory true 0x00#8 [.byte 0x7C#8, .error err] [.ok]) =
      (rd 0xFF#8 0x7C#8 ++ sw 0x40#8 ++ [.read .mem 0x80#8 (some (.error err))],
        [.transportError err], 0x40#8, true) := by decide +kernel

/-! ### INVALIDATE (V-I) -/

theorem test_invalidate :
    let t := after (exec .invalidate (memory true 0x61#8 [] []))
    t.accessor.bankValid = false ∧ t.trace = [] ∧ t.responses = [.ok []] ∧ t.scanner = fresh.scanner ∧
    after (exec .invalidate (memory false 0x12#8 [] [])) = (memory false 0x12#8 [] []).respond (.ok []) :=
  ⟨rfl, rfl, rfl, rfl, rfl⟩

/-! ### Step -/

/-- The host's word runs as the first instruction after reset. -/
theorem test_step_fromReset :
    after? (step (State.reset.withFetchWord 32 0x30000000)) = some (State.reset.respond (.ok [])) := rfl

/-- An illegal word leaves an IllegalCommand response and nothing else (R172). -/
theorem test_step_illegal :
    after? (step (State.reset.withFetchWord 32 0x10000001)) =
      some { State.reset with responses := [{ status := 0x03#8, count := 0#9, payload := [], detail := none }] } := rfl

/-- Reset takes a scanner back to zero and bank_valid to 0 (R200). -/
theorem test_step_reset :
    let t := after (step { memory true 0x61#8 [] [] with host := [.reset] })
    t.scanner = Scanner.reset ∧ t.accessor.bankValid = false ∧ t.host = [] := ⟨rfl, rfl, rfl⟩

/-! ### Witnesses: states and operands that meet the hypotheses of each obligation together -/

/-- A state in which the host presents a word. -/
def asked (w : CmdWord) (s : State) : State := { s with host := [.present w] }

/-- A SCAN that succeeds, S-8: Down 8 and Up 9. -/
def pressAndRelease : State := keys 0 0x200 0x200 1 1 (.byte 0xFE#8) .ok

/-- A SCAN whose row-select write fails, S-10. -/
def writeFails : State := keys 0x400 0x400 0x400 1 0 (.byte 0xFF#8) (.error err)

/-- A KEY transport that never answers. -/
def deadKeys : State := { fresh with keyBus := { reads := [none], writes := [], drawn := 0 } }

/-- A MEM transport that answers the initialisation and never the byte read. -/
def deadMemory : State := { fresh with memBus := { reads := [some (.byte 0x21#8), none], writes := [], drawn := 0 } }

/-- A valid shadow at bank 1 and a READBLOCK across the boundary, M-3. -/
def crossing : State := memory true 0x61#8 [.byte 0x75#8, .byte 0x7C#8, .byte 0x83#8, .byte 0x8A#8] [.ok, .ok]

/-- A READBLOCK that initialises first, M-1. -/
def lazily : State := memory false 0x00#8 [.byte 0x21#8, .byte 0x03#8, .byte 0x0A#8, .byte 0x11#8] [.ok, .ok]

theorem witness_EncodeRestoresWord : decode 0x20FFFFFF#32 = .command (.readblock 255#8 65535#16) := by decide

/-- One word of each class of R82, each at a boundary of its class, in a state that meets the hypotheses. -/
theorem witness_IllegalWordsRefused :
    (asked 0x21001478#32 fresh).phase = .idle ∧ (asked 0x21001478#32 fresh).host = .present 0x21001478#32 :: [] ∧
    CmdWord.wellFormed 0x21001478#32 = false ∧ CmdWord.wellFormed 0x0FFFFFFF#32 = false ∧
    CmdWord.wellFormed 0x40000000#32 = false ∧ CmdWord.wellFormed 0xF0000000#32 = false ∧
    CmdWord.wellFormed 0x18000000#32 = false ∧ CmdWord.wellFormed 0x30000001#32 = false ∧
    CmdWord.wellFormed 0x28000000#32 = false ∧ CmdWord.wellFormed 0x20FFFFFF#32 = true :=
  ⟨rfl, rfl, by decide, by decide, by decide, by decide, by decide, by decide, by decide, by decide⟩

/-- Each polarity, and the bits at both ends. -/
theorem witness_BankSelectKeepsOtherBits :
    tc.polarity = .direct ∧ Params.polarity { tc with polarity := .inverted } = .inverted ∧
    (0 < 8 ∧ 0 ≠ tc.bankBit.val) ∧ (7 < 8 ∧ 7 ≠ tc.bankBit.val) := by decide

theorem witness_ColumnAndRowEncodings :
    (pressedMask 0xFB#8).getLsbD 2 = true ∧ (rowSelect 7).getLsbD 7 = false ∧ (rowSelect 7).getLsbD 0 = true := by decide

theorem witness_ParameterConstraints : (0x00#8 ≠ 0xFF#8) ∧ (0x7F#8).toNat < 0x80 ∧ 0 < 1 := by decide

theorem witness_StepRunsDecodedCommand :
    (asked 0x20000AC8#32 fresh).phase = .idle ∧ (asked 0x20000AC8#32 fresh).host = .present 0x20000AC8#32 :: [] ∧
    decode 0x20000AC8#32 = .command (.readblock 200#8 10#16) ∧ decodeTableWord 32 0x10000000 = some .scan :=
  ⟨rfl, rfl, by decide, by decide⟩

theorem witness_IdleHoldsUnfinishedStops :
    State.reset.phase = .idle ∧ State.reset.host = [] ∧ (State.hang fresh).phase = .unfinished := ⟨rfl, rfl, rfl⟩

theorem witness_ResetZeroesTheBlock :
    State.phase { crossing with host := [.reset] } = .idle ∧ State.host { crossing with host := [.reset] } = [.reset] :=
  ⟨rfl, rfl⟩

theorem witness_AnsweredRunsNeverStop : (asked 0x2000047E#32 crossing).responsive :=
  ⟨rfl, ⟨by decide, by decide⟩, by decide, by decide⟩

theorem witness_OneResponsePerCommand :
    (asked 0x10000000#32 pressAndRelease).phase = .idle ∧
    (asked 0x10000000#32 pressAndRelease).host = .present 0x10000000#32 :: [] ∧
    ∃ t, step (asked 0x10000000#32 pressAndRelease) = .next t ∧ t.phase = .idle := ⟨rfl, rfl, _, rfl, rfl⟩

theorem witness_SilentTransportLeavesUnfinished :
    (deadKeys.phase = .idle ∧ ∃ t, exec .scan deadKeys = .next t ∧ t.phase = .unfinished) ∧
    (deadMemory.phase = .idle ∧ ∃ t, exec (.readblock 0#8 1#16) deadMemory = .next t ∧ t.phase = .unfinished) :=
  ⟨⟨rfl, _, rfl, rfl⟩, rfl, _, rfl, by decide +kernel⟩

/-- A command that succeeds, a RangeError, a TransportError. -/
theorem witness_ErrorsEndTheCommandPrecisely :
    (∃ t, exec .scan pressAndRelease = .next t ∧ t.responses = pressAndRelease.responses ++ [.ok [0x48#8, 0x09#8]]) ∧
    (∃ t, exec (.readblock 255#8 2#16) crossing = .next t ∧ t.responses = crossing.responses ++ [.rangeError]) ∧
    ∃ t, exec .scan writeFails = .next t ∧ t.responses = writeFails.responses ++ [.transportError err] :=
  ⟨⟨_, rfl, by decide +kernel⟩, ⟨_, rfl, by decide +kernel⟩, _, rfl, by decide +kernel⟩

theorem witness_CommandFrames :
    (∃ t, exec .scan pressAndRelease = .next t) ∧ (∃ t, exec (.readblock 126#8 4#16) crossing = .next t) ∧
    ∃ t, exec .invalidate crossing = .next t := ⟨⟨_, rfl⟩, ⟨_, rfl⟩, _, rfl⟩

theorem witness_ScannerAndAccessorCommute :
    ∃ a b c d, Instr.readblock 126#8 4#16 ≠ .scan ∧ exec .scan crossing = .next a ∧
      exec (.readblock 126#8 4#16) a = .next b ∧ exec (.readblock 126#8 4#16) crossing = .next c ∧
      exec .scan c = .next d := ⟨_, _, _, _, by decide, rfl, rfl, rfl, rfl⟩

theorem witness_InvalidShadowUnobservable :
    lazily.accessor.bankValid = false ∧ (∃ t, exec (.readblock 0#8 3#16) lazily = .next t) ∧
    ∃ t, exec (.readblock 0#8 3#16) { lazily with accessor := { gconfShadow := 0xFF#8, bankValid := false } } = .next t :=
  ⟨rfl, ⟨_, rfl⟩, _, rfl⟩

/-- A SCAN and a READBLOCK that end with a listed error, no unlisted answer drawn. -/
theorem witness_ErrorsAreOnlyCopied :
    (∃ t, exec .scan writeFails = .next t ∧ t.keyBus.drawn = writeFails.keyBus.drawn ∧
      t.memBus.drawn = writeFails.memBus.drawn) ∧
    (let s := memory true 0x61#8 [.error err] []
     ∃ t, exec (.readblock 128#8 1#16) s = .next t ∧ t.keyBus.drawn = s.keyBus.drawn ∧ t.memBus.drawn = s.memBus.drawn) :=
  ⟨⟨_, rfl, by decide +kernel, by decide +kernel⟩, _, rfl, by decide +kernel, by decide +kernel⟩

/-- The hypotheses of ScanCompletes, ScanAdvancesCursor, StableIsTheVote, ScanReportsTheEdges: a row that does not wrap,
and one that does. -/
theorem witness_ScanCompletes :
    pressAndRelease.scanAnswers 0xFE#8 (some .ok) ∧ (keys 0 0 0 7 1 (.byte 0x7F#8) .ok).scanAnswers 0x7F#8 (some .ok) :=
  ⟨⟨rfl, rfl⟩, rfl, rfl⟩

/-- The second clause of ScanAdvancesCursor: a SCAN that fails its read, and one that fails its write. -/
theorem witness_ScanAdvancesCursor :
    (∀ c, ¬ (keys 0 0 0 2 0 (.error err) .ok).scanAnswers c (some .ok)) ∧
    ∀ c, ¬ writeFails.scanAnswers c (some .ok) :=
  ⟨fun _ h => (nomatch h.1), fun _ h => (nomatch h.2)⟩

/-- A step for each clause: SCAN, INVALIDATE with a valid shadow, READBLOCK without. -/
theorem witness_StateChangesOnlyWhereTheRulesSay :
    (∃ t, step (asked 0x10000000#32 pressAndRelease) = .next t ∧ t.scanner.row ≠ pressAndRelease.scanner.row) ∧
    (∃ t, step (asked 0x30000000#32 crossing) = .next t ∧ crossing.accessor.bankValid = true ∧
      t.accessor.bankValid = false) ∧
    ∃ t, step (asked 0x20000300#32 lazily) = .next t ∧ lazily.accessor.bankValid = false ∧ t.accessor.bankValid = true :=
  ⟨⟨_, rfl, by decide +kernel⟩, ⟨_, rfl, rfl, rfl⟩, _, rfl, rfl, by decide +kernel⟩

/-- A write that answers ok, one that answers an error and one that is not answered. -/
theorem witness_ScanFilesTheSample :
    pressAndRelease.scanAnswers 0xFE#8 (some .ok) ∧ writeFails.scanAnswers 0xFF#8 (some (.error err)) ∧
    State.scanAnswers { pressAndRelease with keyBus := { reads := [some (.byte 0#8)], writes := [none], drawn := 0 } }
      0#8 none := ⟨⟨rfl, rfl⟩, ⟨rfl, rfl⟩, rfl, rfl⟩

theorem witness_ScanReadFailure :
    (keys 0 0 0 2 0 (.error err) .ok).keyBus.nextRead .key = some (.error err) := rfl

/-- The failing SCAN S-10, a retry that succeeds, and a state that never failed. -/
theorem witness_ScanWriteFailureAndRetry :
    let s : State := { writeFails with
      keyBus := { reads := [some (.byte 0xFF#8), some (.byte 0xFE#8)], writes := [some (.error err), some .ok], drawn := 0 } }
    let s0 : State := keys 0x400 0x400 0x400 1 0 (.byte 0xFE#8) .ok
    s.scanAnswers 0xFF#8 (some (.error err)) ∧ (after (exec .scan s)).scanAnswers 0xFE#8 (some .ok) ∧
    s0.scanner = s.scanner ∧ s0.scanAnswers 0xFE#8 (some .ok) ∧
    (∃ u, exec .scan (after (exec .scan s)) = .next u) ∧ ∃ v, exec .scan s0 = .next v :=
  ⟨⟨rfl, rfl⟩, ⟨rfl, rfl⟩, rfl, ⟨rfl, rfl⟩, ⟨_, rfl⟩, _, rfl⟩

/-- Key 8 goes down, key 9 up: one key for each clause. -/
theorem witness_PressAtOnceReleaseWhenHistoryClears :
    pressAndRelease.scanAnswers 0xFE#8 (some .ok) ∧
    ((8 : Key).val = 8 * pressAndRelease.scanner.row.val + (0 : Fin 8).val ∧
      pressAndRelease.scanner.stable.getLsbD 8 = false ∧ (0xFE#8).getLsbD 0 = false) ∧
    ((9 : Key).val = 8 * pressAndRelease.scanner.row.val + (1 : Fin 8).val ∧
      pressAndRelease.scanner.stable.getLsbD 9 = true ∧ (0xFE#8).getLsbD 1 = true ∧
      (pressAndRelease.scanner.hist.get 0).getLsbD 9 = false) :=
  ⟨⟨rfl, rfl⟩, by decide, by decide⟩

theorem witness_EventsConfinedToTheRow :
    pressAndRelease.scanner.settledRows ∧ pressAndRelease.scanAnswers 0xFE#8 (some .ok) :=
  ⟨by unfold Scanner.settledRows; decide, rfl, rfl⟩

theorem witness_RepeatedSampleEmitsNothing :
    let s := keys 0x400 0x400 0x400 1 0 (.byte 0xFB#8) .ok
    s.scanner.settledRows ∧ s.scanAnswers 0xFB#8 (some .ok) ∧
    (∀ j : Fin Config.slots, rowByte (s.scanner.hist.get j) s.scanner.row = ~~~0xFB#8) ∧
    rowByte s.scanner.stable s.scanner.row = ~~~0xFB#8 :=
  ⟨by unfold Scanner.settledRows; decide, ⟨rfl, rfl⟩, by decide, by decide⟩

/-- Keys 2 and 10 are closed, row 0 selected. -/
theorem witness_ScanSamplesClosedKeys :
    let s := keys 0 0 0 0 0 (.byte 0xFB#8) .ok
    s.scanAnswers 0xFB#8 (some .ok) ∧ ∃ t calls, exec .scan s = .next t ∧ t.trace = s.trace ++ calls ∧
      refKey s.params 0x404#64 (rowSelect s.scanner.row) calls = some 0xFD#8 :=
  ⟨⟨rfl, rfl⟩, _, [.read .key 0x10#8 (some (.byte 0xFB#8)), .write .key 0x11#8 0xFD#8 (some .ok)], rfl,
    by decide +kernel, by decide +kernel⟩

/-- Both sides of the range check at their edge. -/
theorem witness_ReadblockRangeCheck : 256 < (255#8).toNat + (2#16).toNat ∧ (255#8).toNat + (1#16).toNat ≤ 256 ∧
    256 < (0#8).toNat + (257#16).toNat ∧ (0#8).toNat + (256#16).toNat ≤ 256 := by decide

/-- The initialising read answers an error, and a byte. -/
theorem witness_ReadblockInitialisesLazily :
    lazily.accessor.bankValid = false ∧ 3#16 ≠ 0#16 ∧ (253#8).toNat + (3#16).toNat ≤ 256 ∧
    lazily.memBus.nextRead .mem = some (.byte 0x21#8) ∧
    (memory false 0x00#8 [.error err] []).memBus.nextRead .mem = some (.error err) :=
  ⟨rfl, by decide, by decide, rfl, rfl⟩

/-- The banks agree at 128, differ at 127; the read answers a byte or an error, the write ok or an error. -/
theorem witness_ReadblockOneByte :
    let s := memory true 0x61#8 [.byte 0x83#8] [.ok]
    let s' := memory true 0x61#8 [.error err] [.ok]
    (s.accessor.bankValid = true ∧ s'.accessor.bankValid = true) ∧
    targetBank 128#8 = s.params.bankOf s.accessor.gconfShadow ∧
    targetBank 127#8 ≠ s.params.bankOf s.accessor.gconfShadow ∧
    (s.memBus.nextRead .mem = some (.byte 0x83#8) ∧ s'.memBus.nextRead .mem = some (.error err)) ∧
    (s.memBus.nextWrite .mem = some .ok ∧ s.memBus.afterWrite.nextRead .mem = some (.byte 0x83#8)) ∧
    (s'.memBus.nextWrite .mem = some .ok ∧ s'.memBus.afterWrite.nextRead .mem = some (.error err)) ∧
    (memory true 0x61#8 [] [.error err]).memBus.nextWrite .mem = some (.error err) :=
  ⟨⟨rfl, rfl⟩, by decide, by decide, ⟨rfl, rfl⟩, ⟨rfl, rfl⟩, ⟨rfl, rfl⟩, rfl⟩

/-- With a valid shadow and with lazy initialisation. -/
theorem witness_ReadblockCompletes :
    4#16 ≠ 0#16 ∧ (126#8).toNat + (4#16).toNat ≤ 256 ∧ [0x75#8, 0x7C#8, 0x83#8, 0x8A#8].length = (4#16).toNat ∧
    crossing.memBus.reads = (if crossing.accessor.bankValid then [] else [some (.byte 0#8)]) ++
      [0x75#8, 0x7C#8, 0x83#8, 0x8A#8].map (fun v => some (.byte v)) ++ [] ∧
    crossing.memBus.writes = some .ok :: some .ok :: [] ∧
    lazily.memBus.reads = (if lazily.accessor.bankValid then [] else [some (.byte 0x21#8)]) ++
      [0x03#8, 0x0A#8, 0x11#8].map (fun v => some (.byte v)) ++ [] ∧
    lazily.memBus.writes = some .ok :: some .ok :: [] := by decide

/-- The hypotheses of ReadblockLeavesLastBank, ReadblockReadsInOrder and ReadblockCounts: across the boundary with the
shadow valid, and inside bank 0 with lazy initialisation. -/
theorem witness_ReadblockCounts :
    (4#16 ≠ 0#16 ∧ (126#8).toNat + (4#16).toNat ≤ 256 ∧ crossing.startShadow 0x61#8 ∧
      ∃ t calls, exec (.readblock 126#8 4#16) crossing = .next t ∧
        t.responses = crossing.responses ++ [.ok [0x75#8, 0x7C#8, 0x83#8, 0x8A#8]] ∧ t.trace = crossing.trace ++ calls) ∧
    3#16 ≠ 0#16 ∧ (0#8).toNat + (3#16).toNat ≤ 256 ∧ lazily.startShadow 0x21#8 ∧
      ∃ t calls, exec (.readblock 0#8 3#16) lazily = .next t ∧
        t.responses = lazily.responses ++ [.ok [0x03#8, 0x0A#8, 0x11#8]] ∧ t.trace = lazily.trace ++ calls :=
  ⟨⟨by decide, by decide, .inl ⟨rfl, rfl⟩, _, _, rfl, by decide +kernel, rfl⟩,
    by decide, by decide, .inr ⟨rfl, rfl⟩, _, _, rfl, by decide +kernel, rfl⟩

/-- The other two clauses on bank-select writes: across the boundary from bank 0, and the last address from bank 0. -/
theorem witness_ReadblockCounts_oneWrite :
    (let s := memory true 0x00#8 [.byte 0x7C#8, .byte 0x83#8] [.ok]
     2#16 ≠ 0#16 ∧ (127#8).toNat + (2#16).toNat ≤ 256 ∧ s.startShadow 0x00#8 ∧
      ∃ t calls, exec (.readblock 127#8 2#16) s = .next t ∧ t.responses = s.responses ++ [.ok [0x7C#8, 0x83#8]] ∧
        t.trace = s.trace ++ calls) ∧
    (let s := memory true 0x00#8 [.byte 0xFC#8] [.ok]
     1#16 ≠ 0#16 ∧ (255#8).toNat + (1#16).toNat ≤ 256 ∧ s.startShadow 0x00#8 ∧
      ∃ t calls, exec (.readblock 255#8 1#16) s = .next t ∧ t.responses = s.responses ++ [.ok [0xFC#8]] ∧
        t.trace = s.trace ++ calls) :=
  ⟨⟨by decide, by decide, .inl ⟨rfl, rfl⟩, _, _, rfl, by decide +kernel, rfl⟩,
    by decide, by decide, .inl ⟨rfl, rfl⟩, _, _, rfl, by decide +kernel, rfl⟩

/-- The memory contents `E[a] = (7*a + 3) mod 256` of 95_test_vectors.md. -/
def contents (a : LogicalAddr) : Byte := 7#8 * a + 3#8

/-- M-3 with the shadow equal to the device's register, and M-1 with `bank_valid` = 0, both answered as the reference
device with those contents answers. -/
theorem witness_ReadblockReturnsReferenceMemory :
    (crossing.accessor.gconfShadow = 0x61#8 ∧
      refMem tc contents 0x61#8 (after (exec (.readblock 126#8 4#16) crossing)).trace = some 0x61#8) ∧
    lazily.accessor.bankValid = false ∧
      refMem tc contents 0x21#8 (after (exec (.readblock 0#8 3#16) lazily)).trace = some 0x21#8 := by decide +kernel

theorem witness_ReadblockWorkedExample :
    let s := memory true 0x21#8 [.byte 0xAA#8, .byte 0xBB#8] [.ok]
    s.params.bankBit = 6 ∧ s.params.polarity = .direct ∧ s.accessor = { gconfShadow := 0x21#8, bankValid := true } ∧
    s.memBus = { reads := [some (.byte 0xAA#8), some (.byte 0xBB#8)], writes := [some .ok], drawn := 0 } :=
  ⟨rfl, rfl, rfl, rfl⟩

theorem witness_InvalidateCompletes : lazily.accessor.bankValid = false ∧ crossing.accessor.bankValid = true := ⟨rfl, rfl⟩

theorem witness_InvalidateForcesReread :
    1#16 ≠ 0#16 ∧ (255#8).toNat + (1#16).toNat ≤ 256 ∧
    ∃ t u, exec .invalidate crossing = .next t ∧ exec (.readblock 255#8 1#16) t = .next u :=
  ⟨by decide, by decide, _, _, rfl, rfl⟩

/-! ### Witnesses for the invariants: a state that is not reset's, and a step from it -/

/-- Three commands on: a SCAN (S-1), a READBLOCK that initialised and a refused word, and a SCAN asked for. -/
def running : State :=
  { fresh with
    scanner := { hist := #v[0x4#64, 0#64], stable := 0x4#64, row := 1, slot := 0 }
    accessor := { gconfShadow := 0x21#8, bankValid := true }
    trace := [.read .key 0x10#8 (some (.byte 0xFB#8)), .write .key 0x11#8 0xFD#8 (some .ok),
      .read .mem 0x05#8 (some (.byte 0x21#8)), .read .mem 0x80#8 (some (.byte 0x03#8)), .sleep 2]
    responses := [.ok [0x42#8], .ok [0x03#8], .illegalCommand]
    host := [.present 0x10000000#32]
    keyBus := { reads := [some (.byte 0xFF#8)], writes := [some .ok], drawn := 0 } }

theorem witness_step_running : ∃ t, step running = .next t := ⟨_, rfl⟩

theorem witness_StepKeepsConsistent : running.consistent :=
  ⟨by unfold Scanner.settledRows; decide, by decide, by decide⟩

theorem witness_StepKeepsRowCycle : running.rowCycle := by unfold State.rowCycle; decide

theorem witness_StepKeepsDebounced : running.debounced := by unfold State.debounced; decide +kernel

theorem witness_StepMakesOnlyAllowedCalls : running.traceAllowed := by
  intro c hc
  simp only [running, List.mem_cons, List.not_mem_nil, or_false] at hc
  rcases hc with rfl | rfl | rfl | rfl | rfl
  · rfl
  · exact ⟨rfl, 1, rfl⟩
  · exact .inl rfl
  · exact .inr (by decide)
  · exact .inl rfl

theorem witness_StepSendsWellFormedResponses : running.responsesWellFormed := by
  intro r hr
  simp only [running, List.mem_cons, List.not_mem_nil, or_false] at hr
  rcases hr with rfl | rfl | rfl <;> (unfold Response.wellFormed; decide)

end Sys2Proof.Tests
end

section
/-! SUPPORT. Proofs/Parameters: the parameters are exactly those R7 allows. -/

namespace Sys2Proof

/-- ROW_OUT_ADDR is at a nonzero distance from COL_IN_ADDR (R7). -/
theorem Params.colInAddr_ne_rowOutAddr (p : Params) : p.colInAddr ≠ p.rowOutAddr := by
  have hgap := p.rowOutGap.isLt
  have hcol := p.colIn.isLt
  intro h
  have htoNat := congrArg BitVec.toNat h
  simp only [Params.colInAddr, Params.rowOutAddr, BitVec.toNat_add, BitVec.toNat_ofNat] at htoNat
  omega

/-- Two different register addresses are at a distance `rowOutGap` has a value for. -/
theorem rowOutGap_lt_of_ne {colIn rowOut : RegAddr} (h : colIn ≠ rowOut) : (rowOut - colIn - 1#8).toNat < 255 := by
  bv_omega

/-- The `Params` that represents a choice of values (log 3). -/
def Params.ofValues (colIn rowOut gconf : RegAddr) (bit : Fin 8) (polarity : Polarity) (te ts : Nat)
    (h : colIn ≠ rowOut) : Params :=
  { colIn
    rowOutGap := ⟨(rowOut - colIn - 1#8).toNat, rowOutGap_lt_of_ne h⟩
    gconfLow := gconf.setWidth 7
    bankBit := bit
    polarity
    eepromSettlePred := te - 1
    switchSettle := ts }

section
variable {colIn rowOut gconf : RegAddr} {bit : Fin 8} {polarity : Polarity} {te ts : Nat} (h : colIn ≠ rowOut)

theorem Params.ofValues_rowOutAddr : (ofValues colIn rowOut gconf bit polarity te ts h).rowOutAddr = rowOut := by
  simp only [ofValues, rowOutAddr, BitVec.ofNat_toNat, BitVec.setWidth_eq]
  bv_omega

theorem Params.ofValues_gconfAddr (hgconf : gconf.toNat < 0x80) :
    (ofValues colIn rowOut gconf bit polarity te ts h).gconfAddr = gconf := by
  apply BitVec.eq_of_toNat_eq
  simp only [ofValues, gconfAddr, BitVec.toNat_setWidth]
  omega

theorem Params.ofValues_tEepromSettle (hte : 0 < te) :
    (ofValues colIn rowOut gconf bit polarity te ts h).tEepromSettle = te :=
  Nat.sub_add_cancel hte

end

/-- Settles O9: every `Params` meets the constraints, and `Params.ofValues` represents every choice that meets them. -/
theorem parameterConstraints : Obligations.ParameterConstraints := by
  refine ⟨fun p => ⟨p.colInAddr_ne_rowOutAddr, p.gconfAddr_lt, Nat.succ_pos _⟩, ?_⟩
  intro colIn rowOut gconf bit polarity te ts hne hgconf hte
  exact ⟨.ofValues colIn rowOut gconf bit polarity te ts hne, rfl, Params.ofValues_rowOutAddr hne,
    Params.ofValues_gconfAddr hne hgconf, rfl, rfl, Params.ofValues_tEepromSettle hne hte, rfl⟩

end Sys2Proof
end

section
/-! SUPPORT. Proofs/Answered: while every call is answered the machine has a next step (R14, R33, R41). -/

namespace Sys2Proof.Machine

/-! ### Transports that answer -/

section
variable {t : Transport}

theorem Transport.answers.afterRead (h : t.answers) : t.afterRead.answers :=
  ⟨fun hr => h.1 (List.mem_of_mem_tail (t.afterRead_reads ▸ hr)), t.afterRead_writes ▸ h.2⟩

theorem Transport.answers.afterWrite (h : t.answers) : t.afterWrite.answers :=
  ⟨t.afterWrite_reads ▸ h.1, fun hw => h.2 (List.mem_of_mem_tail (t.afterWrite_writes ▸ hw))⟩

theorem Transport.answers.nextRead_ne_none (h : t.answers) (d : Device) : t.nextRead d ≠ none :=
  fun hn => h.1 (t.nextRead_eq_none d hn)

theorem Transport.answers.nextWrite_ne_none (h : t.answers) (d : Device) : t.nextWrite d ≠ none :=
  fun hn => h.2 (t.nextWrite_eq_none d hn)

end

/-! ### A next step exists -/

/-- No command is refused or faults (R33). -/
theorem exec_next (i : Instr) (s : State) : ∃ t, exec i s = .next t := by
  cases i with
  | scan => exact ⟨_, rfl⟩
  | readblock base length => exact ⟨_, rfl⟩
  | invalidate => exact ⟨_, rfl⟩

/-- Only an unfinished command stops the machine (R41). -/
theorem step_next_of_idle (s : State) (h : s.phase = .idle) : ∃ t, step s = .next t := by
  simp only [step, h]
  cases s.fetch with
  | nothing => exact ⟨s, rfl⟩
  | reset s1 => exact ⟨s1.resetBlock, rfl⟩
  | word w s1 =>
    dsimp only
    cases decode w with
    | command i => exact exec_next i s1
    | illegal why => exact ⟨s1.refuseWord, rfl⟩

/-! ### The commands stay answered -/

/-- A SCAN whose calls are answered ends with the block idle (R103, R113, R114). -/
theorem execScan_keeps_responsive {s t : State} (hs : s.responsive) (h : execScan s = .next t) : t.responsive := by
  obtain ⟨hidle, hkey, hmem⟩ := hs
  obtain ⟨c, hr, hw⟩ | ⟨e, hr⟩ | ⟨c, e, hr, hw⟩ | hr | ⟨c, hr, hw⟩ := execScan_cases s
  · rw [execScan_ok s c hr hw] at h
    cases h
    exact ⟨hidle, hkey.afterRead.afterWrite, hmem⟩
  · rw [execScan_readError s e hr] at h
    cases h
    exact ⟨hidle, hkey.afterRead, hmem⟩
  · rw [execScan_writeError s c e hr hw] at h
    cases h
    exact ⟨hidle, hkey.afterRead.afterWrite, hmem⟩
  · exact absurd hr (hkey.nextRead_ne_none _)
  · exact absurd hw (hkey.afterRead.nextWrite_ne_none _)

/-- A READBLOCK whose calls are answered ends with the block idle (R132). -/
theorem readBlock_keeps_responsive (base : LogicalAddr) (length : BitVec 16) (s : State) (hs : s.responsive) :
    (readBlock base length s).responsive := by
  refine readBlock_induct (P := State.responsive) base length s hs ?initOk ?switchOk ?readByte ?readError ?readSilent
    ?switchError ?switchSilent ?success ?rangeError
  case initOk => exact fun _ _ ⟨hidle, hkey, hmem⟩ _ _ => ⟨hidle, hkey, hmem.afterRead⟩
  case switchOk => exact fun _ _ ⟨hidle, hkey, hmem⟩ _ _ => ⟨hidle, hkey, hmem.afterWrite⟩
  case readByte => exact fun _ _ _ ⟨hidle, hkey, hmem⟩ _ => ⟨hidle, hkey, hmem.afterRead⟩
  case readError => exact fun _ _ _ ⟨hidle, hkey, hmem⟩ _ _ => ⟨hidle, hkey, hmem.afterRead⟩
  case readSilent => exact fun _ _ ⟨_, _, hmem⟩ _ hr => absurd hr (hmem.nextRead_ne_none _)
  case switchError => exact fun _ _ _ ⟨hidle, hkey, hmem⟩ _ => ⟨hidle, hkey, hmem.afterWrite⟩
  case switchSilent => exact fun _ _ ⟨_, _, hmem⟩ hw => absurd hw (hmem.nextWrite_ne_none _)
  case success => exact fun _ _ hs _ => hs
  case rangeError => exact fun _ => hs

theorem dropShadow_keeps_responsive (s : State) (hs : s.responsive) : s.dropShadow.responsive := by
  unfold State.dropShadow
  split
  · exact hs
  · exact hs

/-- Settles O13: an idle block has a next step, and `responsive` is an invariant of the step. -/
theorem answeredRunsNeverStop : Obligations.AnsweredRunsNeverStop := by
  intro s hs
  obtain ⟨t, ht⟩ := step_next_of_idle s hs.1
  refine ⟨t, ht, step_keeps (I := State.responsive) ?host ?reset ?refuse ?scan ?read ?invalidate hs ht⟩
  case host => exact fun _ _ hs => hs
  case reset => exact fun _ ⟨_, hbuses⟩ => ⟨rfl, hbuses⟩
  case refuse => exact fun _ hs => hs
  case scan => exact fun _ _ => execScan_keeps_responsive
  case read => exact fun s base length => readBlock_keeps_responsive base length s
  case invalidate => exact fun s hs => dropShadow_keeps_responsive s hs

end Sys2Proof.Machine
end

section
/-! SUPPORT. Proofs/ErrorsCopied: a command that draws no unlisted answer commutes with renaming errors (D18, R83). -/

namespace Sys2Proof.Machine

section
variable (f : TErr → TErr)

/-! ### Renaming and the operations on the ports -/

theorem State.mapErr_respond (s : State) (r : Response) :
    (s.respond r).mapErr f = (s.mapErr f).respond (r.mapErr f) := by
  simp [State.mapErr, State.respond]

theorem State.mapErr_record (s : State) (c : Call) : (s.record c).mapErr f = (s.mapErr f).record (c.mapErr f) := by
  simp [State.mapErr, State.record]

theorem State.mapErr_sleep (s : State) (duration : Nat) : (s.sleep duration).mapErr f = (s.mapErr f).sleep duration :=
  s.mapErr_record f (.sleep duration)

theorem State.mapErr_setBus (s : State) (d : Device) (t : Transport) :
    (s.setBus d t).mapErr f = (s.mapErr f).setBus d (t.mapErr f) := by
  cases d with
  | key => rfl
  | mem => rfl

theorem State.mapErr_dropShadow (s : State) : s.dropShadow.mapErr f = (s.mapErr f).dropShadow := by
  simp only [State.dropShadow, State.mapErr_accessor]
  split
  · rfl
  · rfl

/-! ### Unlisted answers drawn -/

/-- The unlisted answers drawn on both transports together (log 1). -/
def State.draws (s : State) : Nat := s.keyBus.drawn + s.memBus.drawn

theorem Transport.drawn_le_afterRead (t : Transport) : t.drawn ≤ t.afterRead.drawn := by
  unfold Transport.afterRead
  split
  · exact Nat.le_refl _
  · exact Nat.le_succ _

theorem Transport.drawn_le_afterWrite (t : Transport) : t.drawn ≤ t.afterWrite.drawn := by
  unfold Transport.afterWrite
  split
  · exact Nat.le_refl _
  · exact Nat.le_succ _

/-- Replacing a transport changes the draws by that transport's own. -/
theorem State.draws_setBus (s : State) (d : Device) (t : Transport) :
    (s.setBus d t).draws + (s.bus d).drawn = s.draws + t.drawn := by
  cases d with
  | key => simp [State.draws]; omega
  | mem => simp [State.draws]; omega

/-! ### A command in execution, and the same with errors renamed -/

/-- The state a command in execution has got to. -/
def Progress.state {α : Type} : Progress α → State
  | .going _ s => s
  | .ended s => s

/-- A command in execution with every error of its state renamed; its result is the block's own and holds none. -/
def Progress.mapErr {α : Type} : Progress α → Progress α
  | .going a s => .going a (s.mapErr f)
  | .ended s => .ended (s.mapErr f)

/-- `m`, run from a state with `n` answers drawn, draws no fewer, and if it draws no more then `m'` is `m` renamed.
`m'` is to be the same command run from the renamed state. -/
def Progress.Renamed {α : Type} (n : Nat) (m m' : Progress α) : Prop :=
  n ≤ m.state.draws ∧ (m.state.draws = n → m' = m.mapErr f)

variable {f}

theorem Progress.Renamed.going {α : Type} {n : Nat} {a : α} {s s' : State} (hn : s.draws = n) (hs : s.mapErr f = s') :
    (Progress.going a s).Renamed f n (.going a s') :=
  ⟨hn.ge, fun _ => by rw [Progress.mapErr, hs]⟩

/-- Draws only grow, so a sequence without draws has both its parts without. -/
theorem Progress.Renamed.andThen {α β : Type} {n : Nat} {m m' : Progress α} {rest : α → State → Progress β}
    (h : m.Renamed f n m') (hrest : ∀ a s, (rest a s).Renamed f s.draws (rest a (s.mapErr f))) :
    (m.andThen rest).Renamed f n (m'.andThen rest) := by
  obtain ⟨hle, heq⟩ := h
  cases m with
  | ended s => exact ⟨hle, fun hn => by rw [heq hn]; rfl⟩
  | going a s =>
    obtain ⟨hle', heq'⟩ := hrest a s
    refine ⟨Nat.le_trans hle hle', fun hn => ?_⟩
    have hs : s.draws = n := Nat.le_antisymm (hn ▸ hle') hle
    rw [heq hs]
    exact heq' (hn.trans hs.symm)

theorem Progress.Renamed.finish {n : Nat} {m m' : Progress (List Byte)} (h : m.Renamed f n m')
    (hn : m.finish.draws = n) : m'.finish = m.finish.mapErr f := by
  cases m with
  | ended s => rw [h.2 hn]; rfl
  | going vs s => rw [h.2 hn, Progress.finish_going, State.mapErr_respond]; rfl

/-! ### Transport calls -/

section
variable (s : State) (d : Device) (a : RegAddr) (v : Byte)

theorem State.draws_readDone : (s.readDone d a).draws + (s.bus d).drawn = s.draws + (s.bus d).afterRead.drawn :=
  s.draws_setBus d _

theorem State.draws_writeDone : (s.writeDone d a v).draws + (s.bus d).drawn = s.draws + (s.bus d).afterWrite.drawn :=
  s.draws_setBus d _

theorem State.memRead_draws : (s.memRead d a).state.draws = (s.readDone d a).draws := by
  rcases s.memRead_cases d a with ⟨v, -, h⟩ | ⟨e, -, h⟩ | ⟨-, h⟩ <;> rw [h] <;> rfl

theorem State.memWrite_draws : (s.memWrite d a v).state.draws = (s.writeDone d a v).draws := by
  rcases s.memWrite_cases d a v with ⟨-, h⟩ | ⟨e, -, h⟩ | ⟨-, h⟩ <;> rw [h] <;> rfl

/-- A read draws no fewer answers, and one that takes a listed answer ends in the renamed outcome. -/
theorem State.memRead_renamed : (s.memRead d a).Renamed f s.draws ((s.mapErr f).memRead d a) := by
  have hdraws := s.draws_readDone d a
  refine ⟨?_, fun hn => ?_⟩
  · have := (s.bus d).drawn_le_afterRead
    rw [s.memRead_draws]
    omega
  rw [s.memRead_draws] at hn
  obtain ⟨hnext, hafter⟩ := (s.bus d).nextRead_mapErr f d (by omega)
  have hdone : (s.mapErr f).readDone d a = (s.readDone d a).mapErr f := by
    rw [State.readDone, State.readDone, State.mapErr_record, State.mapErr_setBus, State.mapErr_bus, hnext, hafter]
    rfl
  rw [← State.mapErr_bus] at hnext
  rcases s.memRead_cases d a with ⟨v, hans, h⟩ | ⟨e, hans, h⟩ | ⟨hans, h⟩
  · rw [State.memRead_byte _ d a v (by rw [hnext, hans]; rfl), h, hdone]; rfl
  · rw [State.memRead_error _ d a (f e) (by rw [hnext, hans]; rfl), h, hdone, Progress.mapErr, State.mapErr_respond]; rfl
  · rw [State.memRead_silent _ d a (by rw [hnext, hans]; rfl), h, hdone]; rfl

/-- A write draws no fewer answers, and one that takes a listed answer ends in the renamed outcome. -/
theorem State.memWrite_renamed : (s.memWrite d a v).Renamed f s.draws ((s.mapErr f).memWrite d a v) := by
  have hdraws := s.draws_writeDone d a v
  refine ⟨?_, fun hn => ?_⟩
  · have := (s.bus d).drawn_le_afterWrite
    rw [s.memWrite_draws]
    omega
  rw [s.memWrite_draws] at hn
  obtain ⟨hnext, hafter⟩ := (s.bus d).nextWrite_mapErr f d (by omega)
  have hdone : (s.mapErr f).writeDone d a v = (s.writeDone d a v).mapErr f := by
    rw [State.writeDone, State.writeDone, State.mapErr_record, State.mapErr_setBus, State.mapErr_bus, hnext, hafter]
    rfl
  rw [← State.mapErr_bus] at hnext
  rcases s.memWrite_cases d a v with ⟨hans, h⟩ | ⟨e, hans, h⟩ | ⟨hans, h⟩
  · rw [State.memWrite_ok _ d a v (by rw [hnext, hans]; rfl), h, hdone]; rfl
  · rw [State.memWrite_error _ d a v (f e) (by rw [hnext, hans]; rfl), h, hdone, Progress.mapErr, State.mapErr_respond]
    rfl
  · rw [State.memWrite_silent _ d a v (by rw [hnext, hans]; rfl), h, hdone]; rfl

end

/-! ### The three commands -/

section
variable (s : State)

theorem scanBody_renamed : (scanBody s).Renamed f s.draws (scanBody (s.mapErr f)) :=
  (s.memRead_renamed .key s.params.colInAddr).andThen fun c s1 =>
    (State.memWrite_renamed { s1 with scanner := s1.scanner.fileSample c } .key _ _).andThen
      fun _ _ => .going rfl rfl

theorem State.lazyInit_renamed : s.lazyInit.Renamed f s.draws (s.mapErr f).lazyInit := by
  unfold State.lazyInit
  rw [State.mapErr_accessor]
  cases s.accessor.bankValid with
  | true => exact .going rfl rfl
  | false => exact (s.memRead_renamed .mem s.params.gconfAddr).andThen fun _ _ => .going rfl rfl

theorem State.selectBank_renamed (b : Bank) : (s.selectBank b).Renamed f s.draws ((s.mapErr f).selectBank b) := by
  unfold State.selectBank
  rw [State.mapErr_params, State.mapErr_accessor]
  split
  · exact .going rfl rfl
  · exact (s.memWrite_renamed .mem _ _).andThen fun _ _ => .going rfl (State.mapErr_sleep f _ _)

theorem State.readWindow_renamed (a : LogicalAddr) :
    (s.readWindow a).Renamed f s.draws ((s.mapErr f).readWindow a) :=
  (s.memRead_renamed .mem (physAddr a)).andThen fun _ s1 => .going rfl (s1.mapErr_sleep f _)

theorem State.readLogical_renamed (a : LogicalAddr) :
    (s.readLogical a).Renamed f s.draws ((s.mapErr f).readLogical a) :=
  (s.selectBank_renamed (targetBank a)).andThen fun _ s1 => s1.readWindow_renamed a

theorem readAddrs_renamed (addrs : List LogicalAddr) :
    (readAddrs addrs s).Renamed f s.draws (readAddrs addrs (s.mapErr f)) := by
  induction addrs generalizing s with
  | nil => exact .going rfl rfl
  | cons a rest ih => exact (s.readLogical_renamed a).andThen fun _ s1 => (ih s1).andThen fun _ _ => .going rfl rfl

theorem readBlock_mapErr (base : LogicalAddr) (length : BitVec 16) (hn : (readBlock base length s).draws = s.draws) :
    readBlock base length (s.mapErr f) = (readBlock base length s).mapErr f := by
  by_cases h0 : length = 0#16
  · rw [h0, readBlock_zero, readBlock_zero, State.mapErr_respond, Response.mapErr_ok]
  rcases Nat.lt_or_ge 256 (base.toNat + length.toNat) with hr | hr
  · rw [readBlock_outOfRange _ _ _ hr, readBlock_outOfRange _ _ _ hr, State.mapErr_respond, Response.mapErr_rangeError]
  rw [readBlock_inRange _ _ _ h0 hr] at hn ⊢
  rw [readBlock_inRange _ _ _ h0 hr]
  exact (s.lazyInit_renamed.andThen fun _ s1 => readAddrs_renamed s1 _).finish hn

end

end

/-- Settles O52: every call, and so every command, that draws no unlisted answer commutes with renaming. -/
theorem errorsAreOnlyCopied : Obligations.ErrorsAreOnlyCopied := by
  intro f i s t h hkey hmem
  have hn : t.draws = s.draws := by rw [State.draws, State.draws, hkey, hmem]
  cases i with
  | scan => cases h; exact congrArg _ ((scanBody_renamed s).finish hn)
  | readblock base length => cases h; exact congrArg _ (readBlock_mapErr s base length hn)
  | invalidate =>
    cases h
    rw [State.mapErr_respond, State.mapErr_dropShadow]
    rfl

end Sys2Proof.Machine
end

section
/-! SUPPORT. Proofs/Frames: what each command leaves as it was, and whose calls it makes (R20, R100, R130, R140). -/

namespace Sys2Proof.Machine

/-! ### SCAN -/

/-- What a SCAN leaves as it was, on every path, and its calls (R100, R102). -/
def State.ScanFrame (s t : State) : Prop :=
  t.accessor = s.accessor ∧ t.memBus = s.memBus ∧ t.params = s.params ∧ t.host = s.host ∧
    t.shadowDraws = s.shadowDraws ∧
    ∃ calls, t.trace = s.trace ++ calls ∧ calls.length ≤ 2 ∧ ∀ c ∈ calls, c.on .key = true

theorem execScan_frame {s t : State} (h : execScan s = .next t) : s.ScanFrame t := by
  obtain ⟨c, hr, hw⟩ | ⟨e, hr⟩ | ⟨c, e, hr, hw⟩ | hr | ⟨c, hr, hw⟩ := execScan_cases s
  · rw [execScan_ok s c hr hw] at h
    cases h
    exact ⟨rfl, rfl, rfl, rfl, rfl, _, rfl, by simp, by simp [Call.on]⟩
  · rw [execScan_readError s e hr] at h
    cases h
    exact ⟨rfl, rfl, rfl, rfl, rfl, _, rfl, by simp, by simp [Call.on]⟩
  · rw [execScan_writeError s c e hr hw] at h
    cases h
    exact ⟨rfl, rfl, rfl, rfl, rfl, _, rfl, by simp, by simp [Call.on]⟩
  · rw [execScan_readSilent s hr] at h
    cases h
    exact ⟨rfl, rfl, rfl, rfl, rfl, _, rfl, by simp, by simp [Call.on]⟩
  · rw [execScan_writeSilent s c hr hw] at h
    cases h
    exact ⟨rfl, rfl, rfl, rfl, rfl, _, rfl, by simp, by simp [Call.on]⟩

/-! ### READBLOCK -/

/-- What a READBLOCK leaves as it was, on every path, and its calls (R130). -/
def State.ReadblockFrame (s t : State) : Prop :=
  t.scanner = s.scanner ∧ t.keyBus = s.keyBus ∧ t.params = s.params ∧ t.host = s.host ∧
    t.shadowDraws = s.shadowDraws ∧
    ∃ calls, t.trace = s.trace ++ calls ∧ ∀ c ∈ calls, c.on .mem = true ∨ c.isSleep = true

theorem State.ReadblockFrame.refl (s : State) : s.ReadblockFrame s :=
  ⟨rfl, rfl, rfl, rfl, rfl, [], (List.append_nil _).symm, by simp⟩

theorem State.ReadblockFrame.trans {s t u : State} (h : s.ReadblockFrame t) (h' : t.ReadblockFrame u) :
    s.ReadblockFrame u := by
  obtain ⟨hscanner, hbus, hparams, hhost, hdraws, calls, htrace, hcalls⟩ := h
  obtain ⟨hscanner', hbus', hparams', hhost', hdraws', calls', htrace', hcalls'⟩ := h'
  refine ⟨hscanner'.trans hscanner, hbus'.trans hbus, hparams'.trans hparams, hhost'.trans hhost,
    hdraws'.trans hdraws, calls ++ calls', by rw [htrace', htrace, List.append_assoc], fun c hc => ?_⟩
  exact (List.mem_append.mp hc).elim (hcalls c) (hcalls' c)

/-- A MEM read stays in the frame whatever it answers. -/
theorem State.readblockFrame_readDone (s : State) (a : RegAddr) : s.ReadblockFrame (s.readDone .mem a) :=
  ⟨rfl, rfl, rfl, rfl, rfl, _, rfl, by simp [Call.on]⟩

/-- So does a bank-select write. -/
theorem State.readblockFrame_switchCall (s : State) (b : Bank) : s.ReadblockFrame (s.switchCall b) :=
  ⟨rfl, rfl, rfl, rfl, rfl, _, rfl, by simp [Call.on]⟩

theorem State.readblockFrame_sleep (s : State) (duration : Nat) : s.ReadblockFrame (s.sleep duration) :=
  ⟨rfl, rfl, rfl, rfl, rfl, _, rfl, by simp [Call.isSleep]⟩

theorem readBlock_frame (base : LogicalAddr) (length : BitVec 16) (s : State) :
    s.ReadblockFrame (readBlock base length s) := by
  refine readBlock_induct (P := s.ReadblockFrame) base length s (.refl s) ?initOk ?switchOk ?readByte ?readError
    ?readSilent ?switchError ?switchSilent ?success ?rangeError
  case initOk => exact fun t _ h _ _ => h.trans (t.readblockFrame_readDone _)
  case switchOk =>
    exact fun t b h _ _ => (h.trans (t.readblockFrame_switchCall b)).trans
      (State.readblockFrame_sleep (t.switchCall b) t.params.tSwitchSettle)
  case readByte => exact fun t _ _ h _ => (h.trans (t.readblockFrame_readDone _)).trans (State.readblockFrame_sleep _ _)
  case readError => exact fun t _ _ h _ _ => h.trans (t.readblockFrame_readDone _)
  case readSilent => exact fun t _ h _ _ => h.trans (t.readblockFrame_readDone _)
  case switchError => exact fun t b _ h _ => h.trans (t.readblockFrame_switchCall b)
  case switchSilent => exact fun t b h _ => h.trans (t.readblockFrame_switchCall b)
  case success => exact fun _ _ h _ => h
  case rangeError => exact fun _ => .refl s

/-! ### INVALIDATE -/

section
variable (s : State)

@[simp] theorem State.dropShadow_scanner : s.dropShadow.scanner = s.scanner := by
  unfold State.dropShadow; split <;> rfl

@[simp] theorem State.dropShadow_phase : s.dropShadow.phase = s.phase := by
  unfold State.dropShadow; split <;> rfl

@[simp] theorem State.dropShadow_trace : s.dropShadow.trace = s.trace := by
  unfold State.dropShadow; split <;> rfl

@[simp] theorem State.dropShadow_host : s.dropShadow.host = s.host := by
  unfold State.dropShadow; split <;> rfl

@[simp] theorem State.dropShadow_keyBus : s.dropShadow.keyBus = s.keyBus := by
  unfold State.dropShadow; split <;> rfl

@[simp] theorem State.dropShadow_memBus : s.dropShadow.memBus = s.memBus := by
  unfold State.dropShadow; split <;> rfl

@[simp] theorem State.dropShadow_params : s.dropShadow.params = s.params := by
  unfold State.dropShadow; split <;> rfl

end

end Sys2Proof.Machine
end

section
/-! SUPPORT. Proofs/Consistency: every step keeps R34 (b) to (d). The scanner's half, (b) and (c), and the accessor's half,
(d), are kept apart, since the two components share no state (R20). -/

namespace Sys2Proof.Machine

/-- Calls that each leave a reading of the trace as it is leave it as it is together. -/
theorem foldl_eq_self {α : Type} {f : α → Call → α} {calls : List Call} (h : ∀ a, ∀ c ∈ calls, f a c = a) (a : α) :
    calls.foldl f a = a :=
  (List.foldl_ext f (fun a _ => a) a h).trans (List.foldl_fixed calls)

/-! ### The scanner's half -/

/-- R34 (b) and (c). -/
def State.rowsSettled (s : State) : Prop :=
  s.scanner.settledRows ∧ (lastRowWriteOk s.trace = true → s.scanner.stable = voter s.scanner.hist)

/-- Calls without a row-select write keep it. -/
theorem State.rowsSettled.of_calls {s t : State} {calls : List Call} (hs : s.rowsSettled)
    (hscanner : t.scanner = s.scanner) (htrace : t.trace = s.trace ++ calls)
    (hcalls : ∀ ok, ∀ c ∈ calls, rowWriteStep ok c = ok) : t.rowsSettled := by
  rw [State.rowsSettled, hscanner, htrace, lastRowWriteOk_append, foldl_eq_self hcalls]
  exact hs

/-- A row-select write is on the KEY transport. -/
theorem rowWriteStep_of_on_mem {c : Call} (hc : c.on .mem = true ∨ c.isSleep = true) (ok : Bool) :
    rowWriteStep ok c = ok := by
  cases c with
  | read d a answer => rfl
  | sleep duration => rfl
  | write d a v answer =>
    cases d with
    | mem => rfl
    | key => simp [Call.on, Call.isSleep] at hc

/-- Where `stable` is the whole vote it agrees with it in every row, wherever the cursor is. -/
theorem Scanner.settledRows_of_stable_eq {n : Nat} {sc : Scanner n} (h : sc.stable = voter sc.hist) :
    sc.settledRows := fun r _ => congrArg (rowByte · r) h

/-- The vote of the zero history is zero (R200). -/
theorem Scanner.reset_stable_eq : Scanner.reset.stable = voter Scanner.reset.hist := by decide

theorem State.rowsSettled_resetBlock (s : State) : s.resetBlock.rowsSettled :=
  ⟨Scanner.settledRows_of_stable_eq Scanner.reset_stable_eq, fun _ => Scanner.reset_stable_eq⟩

/-- A sample filed changes the vote of the current row only (R106). -/
theorem Scanner.settledRows_fileSample {n : Nat} {sc : Scanner n} (h : sc.settledRows) (c : Byte) :
    (sc.fileSample c).settledRows := fun r hr =>
  (h r hr).trans (rowByte_voter_fileSample sc c r hr).symm

/-- A SCAN commits the vote, or files a sample in the current row and fails its row-select write, or files nothing (R103,
R113, R114). -/
theorem execScan_keeps_rowsSettled {s t : State} (hs : s.rowsSettled) (h : execScan s = .next t) : t.rowsSettled := by
  obtain ⟨c, hr, hw⟩ | ⟨e, hr⟩ | ⟨c, e, hr, hw⟩ | hr | ⟨c, hr, hw⟩ := execScan_cases s
  · rw [execScan_ok s c hr hw] at h
    cases h
    exact ⟨Scanner.settledRows_of_stable_eq rfl, fun _ => rfl⟩
  · rw [execScan_readError s e hr] at h
    cases h
    exact hs.of_calls rfl rfl (by simp [rowWriteStep])
  · rw [execScan_writeError s c e hr hw] at h
    cases h
    exact ⟨Scanner.settledRows_fileSample hs.1 c, fun hok => by simp [lastRowWriteOk_append, rowWriteStep] at hok⟩
  · rw [execScan_readSilent s hr] at h
    cases h
    exact hs.of_calls rfl rfl (by simp [rowWriteStep])
  · rw [execScan_writeSilent s c hr hw] at h
    cases h
    exact ⟨Scanner.settledRows_fileSample hs.1 c, fun hok => by simp [lastRowWriteOk_append, rowWriteStep] at hok⟩

/-- READBLOCK leaves the scanner alone and writes no row select (R130). -/
theorem readBlock_keeps_rowsSettled (base : LogicalAddr) (length : BitVec 16) {s : State} (hs : s.rowsSettled) :
    (readBlock base length s).rowsSettled := by
  obtain ⟨hscanner, -, -, -, -, calls, htrace, hcalls⟩ := readBlock_frame base length s
  exact hs.of_calls hscanner htrace fun ok c hc => rowWriteStep_of_on_mem (hcalls c hc) ok

theorem step_keeps_rowsSettled {s t : State} (hs : s.rowsSettled) (h : step s = .next t) : t.rowsSettled := by
  refine step_keeps (I := State.rowsSettled) ?host ?reset ?refuse ?scan ?read ?invalidate hs h
  case host => exact fun _ _ hs => hs
  case reset => exact fun s _ => s.rowsSettled_resetBlock
  case refuse => exact fun _ hs => hs
  case scan => exact fun _ _ => execScan_keeps_rowsSettled
  case read => exact fun _ base length => readBlock_keeps_rowsSettled base length
  case invalidate => exact fun s hs => hs.of_calls s.dropShadow_scanner (calls := []) (by simp) (by simp)

/-! ### The accessor's half -/

/-- R34 (d). -/
def State.shadowKnown (s : State) : Prop :=
  s.accessor.bankValid = true → lastGconf s.params s.trace = some s.accessor.gconfShadow

/-- Calls that tell nothing of GCONF_ADDR keep it. -/
theorem State.shadowKnown.of_calls {s t : State} {calls : List Call} (hs : s.shadowKnown)
    (haccessor : t.accessor = s.accessor) (hparams : t.params = s.params) (htrace : t.trace = s.trace ++ calls)
    (hcalls : ∀ g, ∀ c ∈ calls, gconfStep s.params g c = g) : t.shadowKnown := by
  rw [State.shadowKnown, haccessor, hparams, htrace, lastGconf_append, foldl_eq_self hcalls]
  exact hs

/-- GCONF_ADDR is a register behind the MEM transport. -/
theorem gconfStep_of_on_key {c : Call} (hc : c.on .key = true) (p : Params) (g : Option Byte) :
    gconfStep p g c = g := by
  cases c with
  | sleep duration => rfl
  | read d a answer =>
    cases d with
    | key => rfl
    | mem => simp [Call.on] at hc
  | write d a v answer =>
    cases d with
    | key => rfl
    | mem => simp [Call.on] at hc

/-- SCAN leaves the accessor alone and makes no call on the MEM transport (R100). -/
theorem execScan_keeps_shadowKnown {s t : State} (hs : s.shadowKnown) (h : execScan s = .next t) : t.shadowKnown := by
  obtain ⟨haccessor, -, hparams, -, -, calls, htrace, -, hcalls⟩ := execScan_frame h
  exact hs.of_calls haccessor hparams htrace fun g c hc => gconfStep_of_on_key (hcalls c hc) _ g

/-- READBLOCK caches what it reads from or successfully writes to GCONF_ADDR, and its window reads are at other addresses
(R135, R137, R138). -/
theorem readBlock_keeps_shadowKnown (base : LogicalAddr) (length : BitVec 16) {s : State} (hs : s.shadowKnown) :
    (readBlock base length s).shadowKnown := by
  refine readBlock_induct (P := State.shadowKnown) base length s hs ?initOk ?switchOk ?readByte ?readError ?readSilent
    ?switchError ?switchSilent ?success ?rangeError
  case initOk => exact fun _ _ _ _ hr _ => by simp [lastGconf_append, gconfStep, hr]
  case switchOk => exact fun _ _ _ _ hw _ => by simp [lastGconf_append, gconfStep, hw]
  case readByte =>
    exact fun s a _ hs hr => hs.of_calls rfl rfl (List.append_assoc ..)
      (by simp [gconfStep, hr, s.params.physAddr_ne_gconfAddr a])
  case readError => exact fun _ _ _ hs _ hr => hs.of_calls rfl rfl rfl (by simp [gconfStep, hr])
  case readSilent => exact fun _ _ hs _ hr => hs.of_calls rfl rfl rfl (by simp [gconfStep, hr])
  case switchError => exact fun _ _ _ hs hw => hs.of_calls rfl rfl rfl (by simp [gconfStep, hw])
  case switchSilent => exact fun _ _ hs hw => hs.of_calls rfl rfl rfl (by simp [gconfStep, hw])
  case success => exact fun _ _ hs _ => hs
  case rangeError => exact fun _ => hs

theorem step_keeps_shadowKnown {s t : State} (hs : s.shadowKnown) (h : step s = .next t) : t.shadowKnown := by
  refine step_keeps (I := State.shadowKnown) ?host ?reset ?refuse ?scan ?read ?invalidate hs h
  case host => exact fun _ _ hs => hs
  case reset => exact fun _ _ hvalid => nomatch hvalid
  case refuse => exact fun _ hs => hs
  case scan => exact fun _ _ => execScan_keeps_shadowKnown
  case read => exact fun _ base length => readBlock_keeps_shadowKnown base length
  case invalidate => exact fun s _ hvalid => by simp at hvalid

/-- Settles O47: each component's half of R34 is an invariant of the step. -/
theorem stepKeepsConsistent : Obligations.StepKeepsConsistent := by
  intro s t ⟨hrows, hwritten, hshadow⟩ h
  obtain ⟨hrows', hwritten'⟩ := step_keeps_rowsSettled ⟨hrows, hwritten⟩ h
  exact ⟨hrows', hwritten', step_keeps_shadowKnown hshadow h⟩

end Sys2Proof.Machine
end

section
/-! SUPPORT. Proofs/BankSelect: the bank-select bit, for both polarities (R28). -/

namespace Sys2Proof

theorem Params.bitVal_direct {p : Params} (h : p.polarity = .direct) (b : Bank) : p.bitVal b = b := by simp [bitVal, h]

theorem Params.bitVal_inverted {p : Params} (h : p.polarity = .inverted) (b : Bank) : p.bitVal b = !b := by simp [bitVal, h]

/-- The bank-select bit of `with_bank(g, b)` is `bitval(b)` (R28). -/
theorem Params.withBank_getLsbD_bankBit (p : Params) (g : Byte) (b : Bank) :
    (p.withBank g b).getLsbD p.bankBit.val = p.bitVal b := by
  rw [withBank_getLsbD _ _ _ _ p.bankBit.isLt, if_pos rfl]

/-- Settles O8: `with_bank` writes `bitval(b)` at BANK_BIT and nothing elsewhere, and `bitval` is its own inverse. -/
theorem bankSelectKeepsOtherBits : Obligations.BankSelectKeepsOtherBits := by
  intro p g b
  refine ⟨fun h => ⟨Params.bitVal_direct h _, ?_⟩, fun h => ⟨Params.bitVal_inverted h _, ?_⟩, p.bankOf_withBank g b,
    fun i hi hne => ?_⟩
  · rw [Params.withBank_getLsbD_bankBit, Params.bitVal_direct h]
  · rw [Params.withBank_getLsbD_bankBit, Params.bitVal_inverted h]
  · rw [Params.withBank_getLsbD _ _ _ _ hi, if_neg hne]

end Sys2Proof
end

section
/-! SUPPORT. Proofs/AtReset: the invariants right after reset (R200). -/

namespace Sys2Proof.Machine

theorem State.consistent_reset : State.reset.consistent :=
  ⟨Scanner.settledRows_of_stable_eq Scanner.reset_stable_eq, fun _ => Scanner.reset_stable_eq, fun h => nomatch h⟩

theorem State.rowCycle_reset : State.reset.rowCycle := ⟨rfl, rfl, rfl⟩

/-- No sample has been taken, and every slot of the zero history is zero. -/
theorem State.debounced_reset : State.reset.debounced := by
  refine ⟨rfl, rfl, fun r => rowByte_zero r, fun r j => .inr ?_⟩
  have slotZero : State.reset.scanner.hist.get j = 0#64 := by
    simp [State.reset, Scanner.reset, Vector.get_eq_getElem]
  rw [slotZero, rowByte_zero]
  rfl

theorem Transport.answers_unlisted : Transport.unlisted.answers := ⟨List.not_mem_nil, List.not_mem_nil⟩

/-- Settles O46: no call has been made and no response sent, and the block's own state is zero. -/
theorem invariantsHoldAtReset : Obligations.InvariantsHoldAtReset :=
  ⟨State.consistent_reset, State.rowCycle_reset, State.debounced_reset, List.forall_mem_nil _, List.forall_mem_nil _,
    rfl, Transport.answers_unlisted, Transport.answers_unlisted⟩

end Sys2Proof.Machine
end

section
/-! SUPPORT. Proofs/LazyInit: a READBLOCK past its range check with `bank_valid` = 0, by what its initialising read answers
(R135). -/

namespace Sys2Proof.Machine

section
variable {s : State} (hv : s.accessor.bankValid = false)
include hv

theorem State.lazyInit_byte {g : Byte} (ha : s.memBus.nextRead .mem = some (.byte g)) :
    s.lazyInit = .going () (s.initialised g) := by
  rw [State.lazyInit, hv]
  dsimp only
  rw [s.memRead_byte .mem _ g ha]
  rfl

theorem State.lazyInit_error {e : TErr} (ha : s.memBus.nextRead .mem = some (.error e)) :
    s.lazyInit = .ended ((s.readDone .mem s.params.gconfAddr).respond (.transportError e)) := by
  rw [State.lazyInit, hv]
  dsimp only
  rw [s.memRead_error .mem _ e ha]
  rfl

theorem State.lazyInit_silent (ha : s.memBus.nextRead .mem = none) :
    s.lazyInit = .ended (s.readDone .mem s.params.gconfAddr).hang := by
  rw [State.lazyInit, hv]
  dsimp only
  rw [s.memRead_silent .mem _ ha]
  rfl

variable {base : LogicalAddr} {length : BitVec 16} (h0 : length ≠ 0#16) (hr : base.toNat + length.toNat ≤ 256)
include h0 hr

theorem readBlock_initByte {g : Byte} (ha : s.memBus.nextRead .mem = some (.byte g)) :
    readBlock base length s = (readAddrs (blockAddrs base length.toNat) (s.initialised g)).finish := by
  rw [readBlock_inRange s _ _ h0 hr, State.lazyInit_byte hv ha, Progress.andThen_going]

theorem readBlock_initError {e : TErr} (ha : s.memBus.nextRead .mem = some (.error e)) :
    readBlock base length s = (s.readDone .mem s.params.gconfAddr).respond (.transportError e) := by
  rw [readBlock_inRange s _ _ h0 hr, State.lazyInit_error hv ha, Progress.andThen_ended, Progress.finish_ended]

theorem readBlock_initSilent (ha : s.memBus.nextRead .mem = none) :
    readBlock base length s = (s.readDone .mem s.params.gconfAddr).hang := by
  rw [readBlock_inRange s _ _ h0 hr, State.lazyInit_silent hv ha, Progress.andThen_ended, Progress.finish_ended]

end

end Sys2Proof.Machine
end

section
/-! SUPPORT. Proofs/DeadShadow: while `bank_valid` is 0 no command looks at `gconf_shadow` (R26, V2). -/

namespace Sys2Proof.Machine

/-- The state with `bank_valid` = 0 and another byte in the meaningless `gconf_shadow` (R26). -/
def State.withDeadShadow (s : State) (g : Byte) : State :=
  { s with accessor := { gconfShadow := g, bankValid := false } }

/-- `t'` is `t`, or differs from it in a shadow that means nothing. -/
def State.SameButDeadShadow (g : Byte) (t t' : State) : Prop :=
  t' = t ∨ (t.accessor.bankValid = false ∧ t' = t.withDeadShadow g)

/-- SCAN commutes with replacing the accessor, which it never looks at (R100). -/
theorem execScan_withAccessor {s t : State} (a : Accessor) (h : execScan s = .next t) :
    execScan { s with accessor := a } = .next { t with accessor := a } := by
  obtain ⟨c, hr, hw⟩ | ⟨e, hr⟩ | ⟨c, e, hr, hw⟩ | hr | ⟨c, hr, hw⟩ := execScan_cases s
  · rw [execScan_ok s c hr hw] at h
    cases h
    exact execScan_ok _ c hr hw
  · rw [execScan_readError s e hr] at h
    cases h
    exact execScan_readError _ e hr
  · rw [execScan_writeError s c e hr hw] at h
    cases h
    exact execScan_writeError _ c e hr hw
  · rw [execScan_readSilent s hr] at h
    cases h
    exact execScan_readSilent _ hr
  · rw [execScan_writeSilent s c hr hw] at h
    cases h
    exact execScan_writeSilent _ c hr hw

/-- A READBLOCK that initialises overwrites the shadow, and one that gets no byte for it never reads it (R135). -/
theorem readBlock_withDeadShadow (base : LogicalAddr) (length : BitVec 16) (s : State) (g : Byte)
    (hv : s.accessor.bankValid = false) :
    State.SameButDeadShadow g (readBlock base length s) (readBlock base length (s.withDeadShadow g)) := by
  by_cases h0 : length = 0#16
  · rw [h0, readBlock_zero, readBlock_zero]
    exact .inr ⟨hv, rfl⟩
  rcases Nat.lt_or_ge 256 (base.toNat + length.toNat) with hr | hr
  · rw [readBlock_outOfRange _ _ _ hr, readBlock_outOfRange _ _ _ hr]
    exact .inr ⟨hv, rfl⟩
  rcases ha : s.memBus.nextRead .mem with _ | (v | e)
  · rw [readBlock_initSilent hv h0 hr ha, readBlock_initSilent (s := s.withDeadShadow g) rfl h0 hr ha]
    exact .inr ⟨hv, rfl⟩
  · rw [readBlock_initByte hv h0 hr ha, readBlock_initByte (s := s.withDeadShadow g) rfl h0 hr ha]
    exact .inl rfl
  · rw [readBlock_initError hv h0 hr ha, readBlock_initError (s := s.withDeadShadow g) rfl h0 hr ha]
    exact .inr ⟨hv, rfl⟩

/-- With `bank_valid` = 0 already, INVALIDATE changes nothing (R140). -/
theorem State.dropShadow_of_invalid {s : State} (hv : s.accessor.bankValid = false) : s.dropShadow = s := by
  rw [State.dropShadow, hv]

theorem exec_withDeadShadow {i : Instr} {s t t' : State} (g : Byte) (hv : s.accessor.bankValid = false)
    (h : exec i s = .next t) (h' : exec i (s.withDeadShadow g) = .next t') : State.SameButDeadShadow g t t' := by
  cases i with
  | scan =>
    have hframe := execScan_frame h
    have heq := (execScan_withAccessor { gconfShadow := g, bankValid := false } h).symm.trans h'
    cases heq
    exact .inr ⟨hframe.1 ▸ hv, rfl⟩
  | readblock base length => cases h; cases h'; exact readBlock_withDeadShadow base length s g hv
  | invalidate =>
    cases h
    cases h'
    rw [State.dropShadow_of_invalid hv, State.dropShadow_of_invalid (s := s.withDeadShadow g) rfl]
    exact .inr ⟨hv, rfl⟩

/-- Settles O19: the two outcomes are equal, or `bank_valid` is still 0 and they differ in the shadow alone. -/
theorem invalidShadowUnobservable : Obligations.InvalidShadowUnobservable := by
  intro i s t t' g hv h h'
  obtain rfl | ⟨hdead, rfl⟩ := exec_withDeadShadow g hv h h'
  · exact ⟨rfl, rfl, rfl, rfl, rfl, rfl, rfl, rfl, rfl, rfl, fun _ => rfl⟩
  · exact ⟨rfl, rfl, rfl, rfl, rfl, rfl, rfl, rfl, rfl, hdead.symm, fun hlive => by simp [hdead] at hlive⟩

end Sys2Proof.Machine
end

section
/-! SUPPORT. Proofs/WordOfCommand: a word that decodes is the word of what it decodes to (R80, R81, R85). -/

namespace Sys2Proof

/-- A word that matches the READBLOCK row has 0x20 as its top byte. -/
theorem toNat_div_of_readblock_masked {w : CmdWord} (h : w &&& 0xFF000000#32 = 0x20000000#32) :
    w.toNat / 2 ^ 24 = 0x20 := by
  have htop : w >>> 24 &&& 0xFF#32 = 0x20#32 := by
    simpa [BitVec.ushiftRight_and_distrib] using congrArg (fun v : CmdWord => v >>> 24) h
  have hnat := congrArg BitVec.toNat htop
  have hmod : ∀ n : Nat, n &&& 255 = n % 256 := fun n => Nat.and_two_pow_sub_one_eq_mod n 8
  have hlt := w.isLt
  simp only [BitVec.toNat_and, BitVec.toNat_ushiftRight, BitVec.toNat_ofNat, Nat.shiftRight_eq_div_pow,
    Nat.reduceMod, Nat.reducePow, hmod] at hnat
  omega

/-- The fields of R85 and the top byte are the whole word. -/
theorem encode_readblock_fields {w : CmdWord} (h : w &&& 0xFF000000#32 = 0x20000000#32) :
    encode (.readblock (baseField w) (lengthField w)) = w := by
  have htop := toNat_div_of_readblock_masked h
  apply BitVec.eq_of_toNat_eq
  rw [encode_readblock_toNat]
  simp only [baseField, lengthField, BitVec.extractLsb'_toNat, Nat.shiftRight_eq_div_pow]
  omega

theorem encode_of_decode {w : CmdWord} {i : Instr} (h : decode w = .command i) : encode i = w := by
  unfold decode at h
  split at h
  · rename_i hw
    cases h
    exact hw.symm.trans BitVec.and_allOnes
  split at h
  · rename_i hw
    cases h
    exact encode_readblock_fields hw
  split at h
  · rename_i hw
    cases h
    exact hw.symm.trans BitVec.and_allOnes
  · cases h

end Sys2Proof
end

section
/-! SUPPORT. Proofs/WhatChanges: what a command can change of the scanner and of `bank_valid` (R21 to R24, R27, R135). -/

namespace Sys2Proof.Machine

variable {s t : State}

/-- A SCAN that does not succeed leaves `stable` and the cursor as they were (R113, R114, R41). -/
theorem execScan_cursor (h : execScan s = .next t) :
    (∃ c, s.scanAnswers c (some .ok)) ∨
    (t.scanner.stable = s.scanner.stable ∧ t.scanner.row = s.scanner.row ∧ t.scanner.slot = s.scanner.slot) := by
  obtain ⟨c, hr, hw⟩ | ⟨e, hr⟩ | ⟨c, e, hr, hw⟩ | hr | ⟨c, hr, hw⟩ := execScan_cases s
  · exact .inl ⟨c, hr, hw⟩
  · rw [execScan_readError s e hr] at h
    cases h
    exact .inr ⟨rfl, rfl, rfl⟩
  · rw [execScan_writeError s c e hr hw] at h
    cases h
    exact .inr ⟨rfl, rfl, rfl⟩
  · rw [execScan_readSilent s hr] at h
    cases h
    exact .inr ⟨rfl, rfl, rfl⟩
  · rw [execScan_writeSilent s c hr hw] at h
    cases h
    exact .inr ⟨rfl, rfl, rfl⟩

/-- READBLOCK never clears `bank_valid`, not on an error either (R27, R141). -/
theorem readBlock_keeps_valid (base : LogicalAddr) (length : BitVec 16) (hv : s.accessor.bankValid = true) :
    (readBlock base length s).accessor.bankValid = true := by
  refine readBlock_induct (P := fun t => t.accessor.bankValid = true) (Q := fun t => t.accessor.bankValid = true)
    base length s hv ?initOk ?switchOk ?readByte ?readError ?readSilent ?switchError ?switchSilent ?success ?rangeError
  case initOk => exact fun _ _ _ _ _ => rfl
  case switchOk => exact fun _ _ hv _ _ => hv
  case readByte => exact fun _ _ _ hv _ => hv
  case readError => exact fun _ _ _ hv _ _ => hv
  case readSilent => exact fun _ _ hv _ _ => hv
  case switchError => exact fun _ _ _ hv _ => hv
  case switchSilent => exact fun _ _ hv _ => hv
  case success => exact fun _ _ hv _ => hv
  case rangeError => exact fun _ => hv

/-- READBLOCK sets `bank_valid` only on a byte from the initialising read (R135). -/
theorem readBlock_raises_valid (base : LogicalAddr) (length : BitVec 16) (hv : s.accessor.bankValid = false)
    (hraised : (readBlock base length s).accessor.bankValid = true) : ∃ g, s.memBus.nextRead .mem = some (.byte g) := by
  by_cases h0 : length = 0#16
  · rw [h0, readBlock_zero] at hraised
    exact absurd (hv.symm.trans hraised) Bool.false_ne_true
  rcases Nat.lt_or_ge 256 (base.toNat + length.toNat) with hr | hr
  · rw [readBlock_outOfRange _ _ _ hr] at hraised
    exact absurd (hv.symm.trans hraised) Bool.false_ne_true
  rcases ha : s.memBus.nextRead .mem with _ | (g | e)
  · rw [readBlock_initSilent hv h0 hr ha] at hraised
    exact absurd (hv.symm.trans hraised) Bool.false_ne_true
  · exact ⟨g, rfl⟩
  · rw [readBlock_initError hv h0 hr ha] at hraised
    exact absurd (hv.symm.trans hraised) Bool.false_ne_true

/-! ### One command, one step -/

/-- `stable` or the cursor is another (R22 to R24). -/
def Scanner.CursorMoved {n : Nat} (sc sc' : Scanner n) : Prop :=
  sc'.stable ≠ sc.stable ∨ sc'.row ≠ sc.row ∨ sc'.slot ≠ sc.slot

theorem Scanner.not_cursorMoved {n : Nat} {sc sc' : Scanner n}
    (h : sc'.stable = sc.stable ∧ sc'.row = sc.row ∧ sc'.slot = sc.slot) : ¬ sc.CursorMoved sc' := by
  obtain ⟨hstable, hrow, hslot⟩ := h
  rintro (hne | hne | hne)
  · exact hne hstable
  · exact hne hrow
  · exact hne hslot

section
variable {i : Instr} (h : exec i s = .next t)
include h

theorem exec_scanner_changed (hne : t.scanner ≠ s.scanner) : i = .scan := by
  cases i with
  | scan => rfl
  | readblock base length => cases h; exact absurd (readBlock_frame base length s).1 hne
  | invalidate => cases h; exact absurd s.dropShadow_scanner hne

theorem exec_cursor_moved (hmoved : s.scanner.CursorMoved t.scanner) : i = .scan ∧ ∃ c, s.scanAnswers c (some .ok) := by
  have hscan : i = .scan := exec_scanner_changed h fun heq =>
    Scanner.not_cursorMoved (by rw [heq]; exact ⟨rfl, rfl, rfl⟩) hmoved
  subst hscan
  exact ⟨rfl, (execScan_cursor h).resolve_right fun hsame => Scanner.not_cursorMoved hsame hmoved⟩

theorem exec_valid_fell (hv : s.accessor.bankValid = true) (hv' : t.accessor.bankValid = false) : i = .invalidate := by
  cases i with
  | scan =>
    obtain ⟨haccessor, -⟩ := execScan_frame h
    exact absurd (hv'.symm.trans (haccessor ▸ hv)) Bool.false_ne_true
  | readblock base length =>
    cases h
    exact absurd (hv'.symm.trans (readBlock_keeps_valid base length hv)) Bool.false_ne_true
  | invalidate => rfl

theorem exec_valid_rose (hv : s.accessor.bankValid = false) (hv' : t.accessor.bankValid = true) :
    ∃ base length g, i = .readblock base length ∧ s.memBus.nextRead .mem = some (.byte g) := by
  cases i with
  | scan =>
    obtain ⟨haccessor, -⟩ := execScan_frame h
    exact absurd (hv.symm.trans (haccessor ▸ hv')) Bool.false_ne_true
  | readblock base length =>
    cases h
    obtain ⟨g, hg⟩ := readBlock_raises_valid base length hv hv'
    exact ⟨base, length, g, rfl, hg⟩
  | invalidate => cases h; exact absurd (s.dropShadow_bankValid.symm.trans hv') Bool.false_ne_true

end

/-- Settles O20: an idle step and a refused word change no state element, reset is one of the listed causes, and a command
word is the word of its command, by `encode_of_decode`. -/
theorem stateChangesOnlyWhereTheRulesSay : Obligations.StateChangesOnlyWhereTheRulesSay := by
  intro s t h
  obtain ⟨-, ⟨-, rfl⟩ | ⟨rest, hhost, rfl⟩ | ⟨w, i, rest, hhost, hdecode, hexec⟩ | ⟨w, why, rest, -, -, rfl⟩⟩ :=
    step_cases s h
  case inr.inl =>
    exact ⟨fun _ => ⟨rest, .inl hhost⟩, fun _ => ⟨rest, .inl hhost⟩, fun _ _ => ⟨rest, .inl hhost⟩,
      fun _ hv' => absurd hv' Bool.false_ne_true⟩
  case inr.inr.inl =>
    rw [← encode_of_decode hdecode] at hhost
    refine ⟨fun hne => ?_, fun hmoved => ?_, fun hv hv' => ?_, fun hv hv' => ?_⟩
    · obtain rfl := exec_scanner_changed hexec hne
      exact ⟨rest, .inr hhost⟩
    · obtain ⟨rfl, c, hc⟩ := exec_cursor_moved hexec hmoved
      exact ⟨rest, .inr ⟨hhost, c, hc⟩⟩
    · obtain rfl := exec_valid_fell hexec hv hv'
      exact ⟨rest, .inr hhost⟩
    · obtain ⟨base, length, g, rfl, hg⟩ := exec_valid_rose hexec hv hv'
      exact ⟨base, length, g, rest, hhost, hg⟩
  case inl | inr.inr.inr =>
    exact ⟨fun hne => absurd rfl hne, fun hmoved => absurd hmoved (Scanner.not_cursorMoved ⟨rfl, rfl, rfl⟩),
      fun hv hv' => absurd (hv'.symm.trans hv) Bool.false_ne_true,
      fun hv hv' => absurd (hv.symm.trans hv') Bool.false_ne_true⟩

end Sys2Proof.Machine
end

section
/-! SUPPORT. Proofs/Commutation: a SCAN and a command of the accessor may change places (R20). A command runs alike from
any two states that agree on its own component, and leaves the other component's side as it was. -/

namespace Sys2Proof.Machine

/-! ### The two sides of a state -/

/-- The states agree on all that the component behind device `d` works with (R3, R20). -/
def State.AgreeOn (d : Device) (s s' : State) : Prop :=
  s'.params = s.params ∧ s'.bus d = s.bus d ∧
  match d with
  | .key => s'.scanner = s.scanner
  | .mem => s'.accessor = s.accessor ∧ s'.shadowDraws = s.shadowDraws

/-- From `p` to `q` and from `p'` to `q'` the phase moves alike: it stays, or ends unfinished (R41). -/
def Phase.MovesAlike (p p' q q' : Phase) : Prop := (q = p ∧ q' = p') ∨ (q = .unfinished ∧ q' = .unfinished)

/-- Two runs of a command of the component behind `d`, begun in `o` and `o'` and now at `s` and `s'`, go alike. -/
def State.Alike (d : Device) (o o' s s' : State) : Prop :=
  s.AgreeOn d s' ∧ Phase.MovesAlike o.phase o'.phase s.phase s'.phase

/-- Two commands in execution go alike: on with one result, or ended both. -/
def Progress.Alike {α : Type} (d : Device) (o o' : State) : Progress α → Progress α → Prop
  | .going a s, .going a' s' => a' = a ∧ State.Alike d o o' s s'
  | .ended s, .ended s' => State.Alike d o o' s s'
  | _, _ => False

/-! ### Running alike -/

section
variable {d : Device} {o o' s s' : State}

theorem State.Alike.params_eq (h : State.Alike d o o' s s') : s'.params = s.params := h.1.1

theorem State.Alike.bus_eq (h : State.Alike d o o' s s') : s'.bus d = s.bus d := h.1.2.1

theorem State.Alike.scanner_eq (h : State.Alike .key o o' s s') : s'.scanner = s.scanner := h.1.2.2

theorem State.Alike.accessor_eq (h : State.Alike .mem o o' s s') : s'.accessor = s.accessor := h.1.2.2.1

theorem State.Alike.shadowDraws_eq (h : State.Alike .mem o o' s s') : s'.shadowDraws = s.shadowDraws := h.1.2.2.2

theorem State.AgreeOn.alike (h : s.AgreeOn d s') : State.Alike d s s' s s' := ⟨h, .inl ⟨rfl, rfl⟩⟩

theorem State.Alike.respond (h : State.Alike d o o' s s') (r r' : Response) :
    State.Alike d o o' (s.respond r) (s'.respond r') := by
  cases d <;> exact h

theorem State.Alike.sleep (h : State.Alike d o o' s s') (duration duration' : Nat) :
    State.Alike d o o' (s.sleep duration) (s'.sleep duration') := by
  cases d <;> exact h

theorem State.Alike.hang (h : State.Alike d o o' s s') : State.Alike d o o' s.hang s'.hang := by
  refine ⟨?_, .inr ⟨rfl, rfl⟩⟩
  cases d with
  | key => exact h.1
  | mem => exact h.1

theorem State.Alike.readDone (h : State.Alike d o o' s s') (a : RegAddr) :
    State.Alike d o o' (s.readDone d a) (s'.readDone d a) := by
  obtain ⟨⟨hparams, hbus, hown⟩, hphase⟩ := h
  cases d with
  | key => exact ⟨⟨hparams, congrArg Transport.afterRead hbus, hown⟩, hphase⟩
  | mem => exact ⟨⟨hparams, congrArg Transport.afterRead hbus, hown⟩, hphase⟩

theorem State.Alike.writeDone (h : State.Alike d o o' s s') (a : RegAddr) (v : Byte) :
    State.Alike d o o' (s.writeDone d a v) (s'.writeDone d a v) := by
  obtain ⟨⟨hparams, hbus, hown⟩, hphase⟩ := h
  cases d with
  | key => exact ⟨⟨hparams, congrArg Transport.afterWrite hbus, hown⟩, hphase⟩
  | mem => exact ⟨⟨hparams, congrArg Transport.afterWrite hbus, hown⟩, hphase⟩

theorem State.Alike.withScanner (h : State.Alike .key o o' s s') (sc : Scanner Config.slots) :
    State.Alike .key o o' { s with scanner := sc } { s' with scanner := sc } := by
  obtain ⟨⟨hparams, hbus, -⟩, hphase⟩ := h
  exact ⟨⟨hparams, hbus, rfl⟩, hphase⟩

theorem State.Alike.withAccessor (h : State.Alike .mem o o' s s') (a : Accessor) :
    State.Alike .mem o o' { s with accessor := a } { s' with accessor := a } := by
  obtain ⟨⟨hparams, hbus, -, hdraws⟩, hphase⟩ := h
  exact ⟨⟨hparams, hbus, rfl, hdraws⟩, hphase⟩

theorem State.Alike.going {α : Type} (h : State.Alike d o o' s s') (a : α) :
    (Progress.going a s).Alike d o o' (.going a s') := ⟨rfl, h⟩

/-- A sequence goes alike when both its parts do. -/
theorem Progress.Alike.andThen {α β : Type} {m m' : Progress α} {rest rest' : α → State → Progress β}
    (h : m.Alike d o o' m')
    (hrest : ∀ a t t', State.Alike d o o' t t' → (rest a t).Alike d o o' (rest' a t')) :
    (m.andThen rest).Alike d o o' (m'.andThen rest') := by
  match m, m', h with
  | .going a t, .going _ t', ⟨rfl, ht⟩ => exact hrest a t t' ht
  | .ended t, .ended t', ht => exact ht

theorem Progress.Alike.finish {m m' : Progress (List Byte)} (h : m.Alike d o o' m') :
    State.Alike d o o' m.finish m'.finish := by
  match m, m', h with
  | .going _ t, .going _ t', ⟨_, ht⟩ => exact ht.respond _ _
  | .ended t, .ended t', ht => exact ht

theorem State.Alike.memRead (h : State.Alike d o o' s s') (a : RegAddr) :
    (s.memRead d a).Alike d o o' (s'.memRead d a) := by
  have hbus := h.bus_eq
  rcases s.memRead_cases d a with ⟨v, ha, hs⟩ | ⟨e, ha, hs⟩ | ⟨ha, hs⟩
  · rw [hs, s'.memRead_byte d a v (hbus ▸ ha)]
    exact (h.readDone a).going v
  · rw [hs, s'.memRead_error d a e (hbus ▸ ha)]
    exact (h.readDone a).respond _ _
  · rw [hs, s'.memRead_silent d a (hbus ▸ ha)]
    exact (h.readDone a).hang

theorem State.Alike.memWrite (h : State.Alike d o o' s s') (a : RegAddr) (v : Byte) :
    (s.memWrite d a v).Alike d o o' (s'.memWrite d a v) := by
  have hbus := h.bus_eq
  rcases s.memWrite_cases d a v with ⟨ha, hs⟩ | ⟨e, ha, hs⟩ | ⟨ha, hs⟩
  · rw [hs, s'.memWrite_ok d a v (hbus ▸ ha)]
    exact (h.writeDone a v).going ()
  · rw [hs, s'.memWrite_error d a v e (hbus ▸ ha)]
    exact (h.writeDone a v).respond _ _
  · rw [hs, s'.memWrite_silent d a v (hbus ▸ ha)]
    exact (h.writeDone a v).hang

/-! ### The three commands run alike -/

theorem scanBody_alike (h : State.Alike .key o o' s s') : (scanBody s).Alike .key o o' (scanBody s') := by
  unfold scanBody
  rw [h.params_eq]
  refine (h.memRead _).andThen fun c t t' ht => ?_
  rw [congrArg Params.rowOutAddr ht.params_eq, ht.scanner_eq]
  refine ((ht.withScanner _).memWrite _ _).andThen fun _ u u' hu => ?_
  exact (hu.withScanner _).going _

theorem State.Alike.lazyInit (h : State.Alike .mem o o' s s') : s.lazyInit.Alike .mem o o' s'.lazyInit := by
  unfold State.lazyInit
  rw [h.params_eq, h.accessor_eq]
  cases s.accessor.bankValid with
  | true => exact h.going _
  | false => exact (h.memRead _).andThen fun g t t' ht => (ht.withAccessor _).going _

theorem State.Alike.selectBank (h : State.Alike .mem o o' s s') (b : Bank) :
    (s.selectBank b).Alike .mem o o' (s'.selectBank b) := by
  unfold State.selectBank
  rw [h.params_eq, h.accessor_eq]
  split
  · exact h.going _
  · refine (h.memWrite _ _).andThen fun _ t t' ht => ?_
    rw [ht.accessor_eq]
    exact ((ht.withAccessor _).sleep _ _).going ()

theorem State.Alike.readLogical (h : State.Alike .mem o o' s s') (a : LogicalAddr) :
    (s.readLogical a).Alike .mem o o' (s'.readLogical a) :=
  (h.selectBank _).andThen fun _ _ _ ht => (ht.memRead _).andThen fun _ _ _ hu => (hu.sleep _ _).going _

theorem readAddrs_alike (addrs : List LogicalAddr) (h : State.Alike .mem o o' s s') :
    (readAddrs addrs s).Alike .mem o o' (readAddrs addrs s') := by
  induction addrs generalizing s s' with
  | nil => exact h.going _
  | cons a rest ih =>
    exact (h.readLogical a).andThen fun v t t' ht => (ih ht).andThen fun vs u u' hu => hu.going _

theorem readBlock_alike (base : LogicalAddr) (length : BitVec 16) (h : State.Alike .mem o o' s s') :
    State.Alike .mem o o' (readBlock base length s) (readBlock base length s') := by
  unfold readBlock
  split
  · exact h.respond _ _
  split
  · exact h.respond _ _
  · exact (h.lazyInit.andThen fun _ t t' ht => readAddrs_alike _ ht).finish

theorem State.Alike.dropShadow (h : State.Alike .mem o o' s s') :
    State.Alike .mem o o' s.dropShadow s'.dropShadow := by
  obtain ⟨⟨hparams, hbus, haccessor, hdraws⟩, hphase⟩ := h
  unfold State.dropShadow
  rw [haccessor]
  split
  · exact ⟨⟨hparams, hbus, by rw [hdraws], by rw [hdraws]⟩, hphase⟩
  · exact ⟨⟨hparams, hbus, haccessor, hdraws⟩, hphase⟩

end

/-! ### What each command leaves of the other side -/

section
variable {s t : State}

theorem execScan_agreeOn_mem (h : execScan s = .next t) : s.AgreeOn .mem t ∧ t.host = s.host := by
  obtain ⟨haccessor, hbus, hparams, hhost, hdraws, -⟩ := execScan_frame h
  exact ⟨⟨hparams, hbus, haccessor, hdraws⟩, hhost⟩

theorem exec_agreeOn_key {i : Instr} (hi : i ≠ .scan) (h : exec i s = .next t) :
    s.AgreeOn .key t ∧ t.host = s.host := by
  cases i with
  | scan => exact absurd rfl hi
  | readblock base length =>
    cases h
    obtain ⟨hscanner, hbus, hparams, hhost, -⟩ := readBlock_frame base length s
    exact ⟨⟨hparams, hbus, hscanner⟩, hhost⟩
  | invalidate =>
    cases h
    exact ⟨⟨s.dropShadow_params, s.dropShadow_keyBus, s.dropShadow_scanner⟩, s.dropShadow_host⟩

end

/-! ### Changing places -/

section
variable {s s' t t' : State}

theorem execScan_alike (hs : s.AgreeOn .key s') (h : execScan s = .next t) (h' : execScan s' = .next t') :
    State.Alike .key s s' t t' := by
  cases h
  cases h'
  exact (scanBody_alike hs.alike).finish

theorem exec_alike_mem {i : Instr} (hi : i ≠ .scan) (hs : s.AgreeOn .mem s') (h : exec i s = .next t)
    (h' : exec i s' = .next t') : State.Alike .mem s s' t t' := by
  cases i with
  | scan => exact absurd rfl hi
  | readblock base length => cases h; cases h'; exact readBlock_alike base length hs.alike
  | invalidate => cases h; cases h'; exact hs.alike.dropShadow.respond _ _

end

/-- Around the square of two commands in either order, the phase ends the same. -/
theorem Phase.square {s a b c d : Phase} (haccess : MovesAlike s a c b) (hscan : MovesAlike s c a d) : b = d := by
  obtain ⟨rfl, rfl⟩ | ⟨rfl, rfl⟩ := haccess <;> obtain ⟨rfl, rfl⟩ | ⟨rfl, rfl⟩ := hscan <;> rfl

/-- Settles O18: the square of the two commands, each edge run alike with the edge across and keeping the other side. -/
theorem scannerAndAccessorCommute : Obligations.ScannerAndAccessorCommute := by
  intro i s a b c d hi hsa hab hsc hcd
  obtain ⟨hsa_mem, hsa_host⟩ := execScan_agreeOn_mem hsa
  obtain ⟨hsc_key, hsc_host⟩ := exec_agreeOn_key hi hsc
  obtain ⟨⟨-, hab_bus, hab_scanner⟩, hab_host⟩ := exec_agreeOn_key hi hab
  obtain ⟨⟨hcd_params, hcd_bus, hcd_accessor, hcd_draws⟩, hcd_host⟩ := execScan_agreeOn_mem hcd
  have scans := execScan_alike hsc_key hsa hcd
  have accesses := exec_alike_mem hi hsa_mem hsc hab
  exact ⟨hab_scanner.trans scans.scanner_eq.symm, accesses.accessor_eq.trans hcd_accessor.symm,
    Phase.square accesses.2 scans.2, hab_bus.trans scans.bus_eq.symm, accesses.bus_eq.trans hcd_bus.symm,
    accesses.params_eq.trans hcd_params.symm, by rw [hab_host, hsa_host, hcd_host, hsc_host],
    accesses.shadowDraws_eq.trans hcd_draws.symm⟩

end Sys2Proof.Machine
end

section
/-! SUPPORT. Proofs/AllowedCalls: every step makes only the calls the block may make (R40, R72, R181). -/

namespace Sys2Proof

/-- A physical address is in the window (R47). -/
theorem le_physAddr (a : LogicalAddr) : 0x80 ≤ (physAddr a).toNat := by
  rw [physAddr_toNat]
  exact Nat.le_add_right _ _

end Sys2Proof

namespace Sys2Proof.Machine

/-- Allowed calls keep it. -/
theorem State.traceAllowed.of_calls {s t : State} {calls : List Call} (hs : s.traceAllowed)
    (hparams : t.params = s.params) (htrace : t.trace = s.trace ++ calls)
    (hcalls : ∀ c ∈ calls, c.allowed s.params) : t.traceAllowed := by
  rw [State.traceAllowed, hparams, htrace]
  exact List.forall_mem_append.mpr ⟨hs, hcalls⟩

/-- A column read and a row-select write, whatever they answer (R72, R102). -/
theorem execScan_keeps_traceAllowed {s t : State} (hs : s.traceAllowed) (h : execScan s = .next t) :
    t.traceAllowed := by
  obtain ⟨c, hr, hw⟩ | ⟨e, hr⟩ | ⟨c, e, hr, hw⟩ | hr | ⟨c, hr, hw⟩ := execScan_cases s
  · rw [execScan_ok s c hr hw] at h
    cases h
    exact hs.of_calls rfl rfl (by simp [Call.allowed])
  · rw [execScan_readError s e hr] at h
    cases h
    exact hs.of_calls rfl rfl (by simp [Call.allowed])
  · rw [execScan_writeError s c e hr hw] at h
    cases h
    exact hs.of_calls rfl rfl (by simp [Call.allowed])
  · rw [execScan_readSilent s hr] at h
    cases h
    exact hs.of_calls rfl rfl (by simp [Call.allowed])
  · rw [execScan_writeSilent s c hr hw] at h
    cases h
    exact hs.of_calls rfl rfl (by simp [Call.allowed])

section
variable {s : State} (hs : s.traceAllowed)
include hs

/-- A read of GCONF_ADDR or of the window, whatever it answers (R135, R138). -/
theorem State.traceAllowed.readDone {a : RegAddr} (ha : a = s.params.gconfAddr ∨ ∃ l, a = physAddr l) :
    (s.readDone .mem a).traceAllowed := by
  have hwindow : a = s.params.gconfAddr ∨ 0x80 ≤ a.toNat := by
    obtain ha | ⟨l, rfl⟩ := ha
    · exact .inl ha
    · exact .inr (le_physAddr l)
  exact hs.of_calls rfl rfl (List.forall_mem_singleton.mpr hwindow)

/-- A bank-select write, whatever it answers (R137). -/
theorem State.traceAllowed.switchCall (b : Bank) : (s.switchCall b).traceAllowed :=
  hs.of_calls rfl rfl (List.forall_mem_singleton.mpr rfl)

theorem State.traceAllowed.sleep {duration : Nat}
    (hd : duration = s.params.tEepromSettle ∨ duration = s.params.tSwitchSettle) : (s.sleep duration).traceAllowed :=
  hs.of_calls rfl rfl (List.forall_mem_singleton.mpr hd)

theorem readBlock_keeps_traceAllowed (base : LogicalAddr) (length : BitVec 16) :
    (readBlock base length s).traceAllowed := by
  refine readBlock_induct (P := State.traceAllowed) base length s hs ?initOk ?switchOk ?readByte ?readError ?readSilent
    ?switchError ?switchSilent ?success ?rangeError
  case initOk => exact fun _ _ hs _ _ => hs.readDone (.inl rfl)
  case switchOk => exact fun s b hs _ _ => (hs.switchCall b).sleep (.inr rfl)
  case readByte => exact fun _ a _ hs _ => (hs.readDone (.inr ⟨a, rfl⟩)).sleep (.inl rfl)
  case readError => exact fun _ _ _ hs ha _ => hs.readDone ha
  case readSilent => exact fun _ _ hs ha _ => hs.readDone ha
  case switchError => exact fun _ b _ hs _ => hs.switchCall b
  case switchSilent => exact fun _ b hs _ => hs.switchCall b
  case success => exact fun _ _ hs _ => hs
  case rangeError => exact fun _ => hs

end

/-- Settles O50: `traceAllowed` is an invariant of the step, since reset starts the trace afresh and each command's calls
are allowed. -/
theorem stepMakesOnlyAllowedCalls : Obligations.StepMakesOnlyAllowedCalls := by
  intro s t hs h
  refine step_keeps (I := State.traceAllowed) ?host ?reset ?refuse ?scan ?read ?invalidate hs h
  case host => exact fun _ _ hs => hs
  case reset => exact fun _ _ => List.forall_mem_nil _
  case refuse => exact fun _ hs => hs
  case scan => exact fun _ _ => execScan_keeps_traceAllowed
  case read => exact fun _ base length hs => readBlock_keeps_traceAllowed hs base length
  case invalidate =>
    exact fun s hs => hs.of_calls s.dropShadow_params (calls := []) (by simp) (List.forall_mem_nil _)

end Sys2Proof.Machine
end

section
/-! SUPPORT. Proofs/SilentCalls: a command left unfinished stopped at its first call without an answer (R41, U6). -/

namespace Sys2Proof.Machine

/-- From `s` to `t` the command goes on: every call answered without an error, no response sent. -/
def State.GoesOn (s t : State) : Prop :=
  t.phase = .idle ∧ t.responses = s.responses ∧
    ∃ calls, t.trace = s.trace ++ calls ∧ ∀ c ∈ calls, c.failed = false

/-- From `s` to `t` the command has made one silent call, after calls that were all answered without an error, and sent no
response. -/
def State.StopsSilently (s t : State) : Prop :=
  t.responses = s.responses ∧
    ∃ calls last, t.trace = s.trace ++ calls ++ [last] ∧ last.silent = true ∧ ∀ c ∈ calls, c.failed = false

section
variable {s t u : State}

theorem State.GoesOn.refl (hidle : s.phase = .idle) : s.GoesOn s :=
  ⟨hidle, rfl, [], (List.append_nil _).symm, List.forall_mem_nil _⟩

theorem State.GoesOn.trans (h : s.GoesOn t) (h' : t.GoesOn u) : s.GoesOn u := by
  obtain ⟨-, hresponses, calls, htrace, hcalls⟩ := h
  obtain ⟨hidle, hresponses', calls', htrace', hcalls'⟩ := h'
  exact ⟨hidle, hresponses'.trans hresponses, calls ++ calls', by rw [htrace', htrace, List.append_assoc],
    List.forall_mem_append.mpr ⟨hcalls, hcalls'⟩⟩

/-- A call that did not fail goes on. -/
theorem State.GoesOn.call {c : Call} (h : s.GoesOn t) (hphase : u.phase = t.phase)
    (hresponses : u.responses = t.responses) (htrace : u.trace = t.trace ++ [c]) (hc : c.failed = false) : s.GoesOn u :=
  h.trans ⟨hphase.trans h.1, hresponses, [c], htrace, List.forall_mem_singleton.mpr hc⟩

/-- A silent call stops it. -/
theorem State.GoesOn.silentCall {c : Call} (h : s.GoesOn t) (hresponses : u.responses = t.responses)
    (htrace : u.trace = t.trace ++ [c]) (hc : c.silent = true) : s.StopsSilently u := by
  obtain ⟨-, hresponses', calls, htrace', hcalls⟩ := h
  exact ⟨hresponses.trans hresponses', calls, c, by rw [htrace, htrace'], hc, hcalls⟩

/-- A command that goes on is not unfinished. -/
theorem State.GoesOn.phase_ne (h : s.GoesOn t) : t.phase ≠ .unfinished := by
  simp [h.1]

end

theorem step_of_unfinished {s : State} (h : s.phase = .unfinished) : step s = .fault .transportSilent := by
  simp [step, h]

/-- Every answer, an error too, ends the SCAN with the block idle (R103, R113, R114). -/
theorem execScan_unfinished {s t : State} (hidle : s.phase = .idle) (h : execScan s = .next t)
    (ht : t.phase = .unfinished) : s.StopsSilently t := by
  have idleAfter (hphase : t.phase = s.phase) : s.StopsSilently t := by
    simp [hphase, hidle] at ht
  obtain ⟨c, hr, hw⟩ | ⟨e, hr⟩ | ⟨c, e, hr, hw⟩ | hr | ⟨c, hr, hw⟩ := execScan_cases s
  · rw [execScan_ok s c hr hw] at h
    cases h
    exact idleAfter rfl
  · rw [execScan_readError s e hr] at h
    cases h
    exact idleAfter rfl
  · rw [execScan_writeError s c e hr hw] at h
    cases h
    exact idleAfter rfl
  · rw [execScan_readSilent s hr] at h
    cases h
    exact (State.GoesOn.refl hidle).silentCall rfl rfl rfl
  · rw [execScan_writeSilent s c hr hw] at h
    cases h
    exact ⟨rfl, [_], _, List.append_cons .., rfl, List.forall_mem_singleton.mpr rfl⟩

/-- So it is with READBLOCK, which goes on until its last byte, its first error or its first silent call (R132). -/
theorem readBlock_unfinished (base : LogicalAddr) (length : BitVec 16) {s : State} (hidle : s.phase = .idle)
    (h : (readBlock base length s).phase = .unfinished) : s.StopsSilently (readBlock base length s) := by
  refine readBlock_induct (P := s.GoesOn) (Q := fun t => t.phase = .unfinished → s.StopsSilently t) base length s
    (.refl hidle) ?initOk ?switchOk ?readByte ?readError ?readSilent ?switchError ?switchSilent ?success ?rangeError h
  case initOk => exact fun t _ hs _ hr => hs.call rfl rfl (t.initialised_trace _) (by simp [hr, Call.failed])
  case switchOk =>
    exact fun t b hs _ hw =>
      (hs.call (u := t.switchCall b) rfl rfl rfl (by simp [hw, Call.failed])).call rfl rfl (t.switched_trace b) rfl
  case readByte =>
    exact fun t a _ hs hr =>
      (hs.call (u := t.readDone .mem (physAddr a)) rfl rfl rfl (by simp [hr, Call.failed])).call rfl rfl rfl rfl
  case readError => exact fun t a e hs _ _ ht => absurd ht hs.phase_ne
  case readSilent => exact fun t a hs _ hr _ => hs.silentCall rfl (t.readDone_mem_trace a) (by simp [hr, Call.silent])
  case switchError => exact fun t b e hs _ ht => absurd ht hs.phase_ne
  case switchSilent => exact fun t b hs hw _ => hs.silentCall rfl (t.switchCall_trace b) (by simp [hw, Call.silent])
  case success => exact fun t _ hs _ ht => absurd ht hs.phase_ne
  case rangeError => exact fun _ ht => absurd ht (State.GoesOn.refl hidle).phase_ne

/-- INVALIDATE makes no call (R140). -/
theorem execInvalidate_phase {s t : State} (h : execInvalidate s = .next t) : t.phase = s.phase := by
  cases h
  exact s.dropShadow_phase

/-- Settles O15: only SCAN and READBLOCK can be left unfinished, and each only where a call got no answer. -/
theorem silentTransportLeavesUnfinished : Obligations.SilentTransportLeavesUnfinished := by
  intro i s t hidle h ht
  have hstop : s.StopsSilently t := by
    cases i with
    | scan => exact execScan_unfinished hidle h ht
    | readblock base length => cases h; exact readBlock_unfinished base length hidle ht
    | invalidate => simp [execInvalidate_phase h, hidle] at ht
  obtain ⟨hresponses, hcalls⟩ := hstop
  exact ⟨hresponses, step_of_unfinished ht, hcalls⟩

end Sys2Proof.Machine
end

section
/-! SUPPORT. Proofs/ReferenceKeys: a SCAN against the reference KEY device (R58, R204). -/

namespace Sys2Proof.Machine

/-- A row-select byte selects its own row only (R72). -/
theorem filter_rowSelect (r : Row) : (List.finRange 8).filter (fun r' => !(rowSelect r).getLsbD r'.val) = [r] := by
  revert r
  decide

/-- With one row selected the column byte is that row's closed keys, active low (R58, R71). -/
theorem refColumns_rowSelect (r : Row) (closed : Snapshot) :
    refColumns (rowSelect r) closed = ~~~rowByte closed r := by
  have selectedOnly (acc : Byte) (r' : Row) :
      (if (rowSelect r).getLsbD r'.val then acc else acc ||| rowByte closed r') =
        if !(rowSelect r).getLsbD r'.val then acc ||| rowByte closed r' else acc := by
    cases (rowSelect r).getLsbD r'.val <;> rfl
  simp only [refColumns, selectedOnly]
  rw [← List.foldl_filter, filter_rowSelect]
  simp

/-- The reference device's side of a successful SCAN's two calls. -/
theorem refKey_scanCalls {p : Params} {closed : Snapshot} {rowOut rowOut' c v : Byte}
    (h : refKey p closed rowOut [.read .key p.colInAddr (some (.byte c)), .write .key p.rowOutAddr v (some .ok)] =
      some rowOut') :
    c = refColumns rowOut closed ∧ v = rowOut' := by
  simpa [refKey, refKeyCall, Option.bind_eq_some_iff] using h

/-- Settles O32: the column byte is the complement of the selected row's closed keys, SCAN files its complement, and the
row-select byte it writes is the new row's. -/
theorem scanSamplesClosedKeys : Obligations.ScanSamplesClosedKeys := by
  intro s t c closed calls rowOut ⟨hr, hw⟩ h htrace href
  replace h := (execScan_ok s c hr hw).symm.trans h
  cases h
  obtain rfl := List.append_cancel_left htrace
  obtain ⟨hc, hrowOut⟩ := refKey_scanCalls href
  refine ⟨?_, hrowOut.symm⟩
  rw [Scanner.commit_hist, Scanner.fileSample_rowByte, if_pos ⟨rfl, rfl⟩, hc, refColumns_rowSelect, BitVec.not_not]

end Sys2Proof.Machine
end

section
/-! SUPPORT. Proofs/ReferenceMemory: a successful READBLOCK against the reference MEM device (R58). -/

namespace Sys2Proof

theorem blockAddrs_eq_map (base : LogicalAddr) (n : Nat) :
    blockAddrs base n = (List.range n).map fun i => BitVec.ofNat 8 (base.toNat + i) := by
  refine List.ext_getElem (by simp) fun i _ _ => ?_
  rw [blockAddrs_getElem, List.getElem_map, List.getElem_range, BitVec.ofNat_add, BitVec.ofNat_toNat,
    BitVec.setWidth_eq]

namespace Machine

/-! ### The READBLOCK that succeeds -/

theorem Response.ok_injective : Function.Injective Response.ok := fun _ _ h => congrArg Response.payload h

/-- Since `s` no response was sent, or one error response. -/
def State.SentNoOk (s t : State) : Prop :=
  t.responses = s.responses ∨ ∃ e, t.responses = s.responses ++ [.transportError e]

theorem State.SentNoOk.ne_ok {s t : State} (h : s.SentNoOk t) (vs : List Byte) :
    t.responses ≠ s.responses ++ [.ok vs] := by
  obtain h | ⟨e, h⟩ := h
  · simp [h]
  · simp [h, Response.ok, Response.transportError]

/-- A READBLOCK in execution sends no response while it goes on, and no Ok where it ends early. -/
theorem readBlock_going_responses (addrs : List LogicalAddr) (s : State) :
    (s.lazyInit.andThen fun _ t => readAddrs addrs t).Meets (fun _ t => t.responses = s.responses) s.SentNoOk := by
  have init : s.lazyInit.Meets (fun _ t => t.responses = s.responses) s.SentNoOk := by
    obtain ⟨-, h⟩ | ⟨-, g, -, h⟩ | ⟨-, e, -, h⟩ | ⟨-, -, h⟩ := s.lazyInit_cases <;> rw [h]
    · exact rfl
    · exact rfl
    · exact .inr ⟨e, rfl⟩
    · exact .inl rfl
  refine init.andThen fun _ t ht => readAddrs_meets (P := fun _ _ t => t.responses = s.responses)
    ?switchOk ?switchError ?switchSilent ?readByte ?readError ?readSilent addrs [] t ht
  case switchOk => exact fun _ _ _ _ h _ _ => h
  case switchError => exact fun _ _ _ _ e h _ _ => .inr ⟨e, congrArg (· ++ _) h⟩
  case switchSilent => exact fun _ _ _ _ h _ _ => .inl h
  case readByte => exact fun _ _ _ _ _ h _ _ => h
  case readError => exact fun _ _ _ _ e h _ _ => .inr ⟨e, congrArg (· ++ _) h⟩
  case readSilent => exact fun _ _ _ _ h _ _ => .inl h

/-- A READBLOCK past its range check that answers ok got through its initialisation and its loop (R132). -/
theorem readBlock_ok {s : State} {base : LogicalAddr} {length : BitVec 16} {vs : List Byte} (h0 : length ≠ 0#16)
    (hr : base.toNat + length.toNat ≤ 256)
    (h : (readBlock base length s).responses = s.responses ++ [.ok vs]) :
    ∃ s1 s2, s.lazyInit = .going () s1 ∧ readAddrs (blockAddrs base length.toNat) s1 = .going vs s2 ∧
      readBlock base length s = s2.respond (.ok vs) := by
  have responses := readBlock_going_responses (blockAddrs base length.toNat) s
  rw [readBlock_inRange s _ _ h0 hr] at h ⊢
  rcases hm : s.lazyInit.andThen fun _ t => readAddrs (blockAddrs base length.toNat) t with ⟨ws, s2⟩ | u
  · rw [hm] at h responses
    have hs2 : s2.responses = s.responses := responses
    obtain rfl : ws = vs := Response.ok_injective (by simpa [hs2] using h)
    obtain ⟨_, s1, hinit, hloop⟩ := Progress.andThen_eq_going _ _ hm
    exact ⟨s1, s2, hinit, hloop, rfl⟩
  · rw [hm] at h responses
    exact absurd h (State.SentNoOk.ne_ok responses vs)

/-- What the loop of R132 keeps while it goes on: a property that a bank switch and a byte read keep. -/
theorem readAddrs_going_induct {P : List Byte → List LogicalAddr → State → Prop}
    (switchOk : ∀ done a rest (s : State), P done (a :: rest) s →
      targetBank a ≠ s.params.bankOf s.accessor.gconfShadow → s.memBus.nextWrite .mem = some .ok →
      P done (a :: rest) (s.switched (targetBank a)))
    (readByte : ∀ done a rest (s : State) (v : Byte), P done (a :: rest) s →
      targetBank a = s.params.bankOf s.accessor.gconfShadow → s.memBus.nextRead .mem = some (.byte v) →
      P (done ++ [v]) rest ((s.readDone .mem (physAddr a)).sleep s.params.tEepromSettle))
    {todo : List LogicalAddr} {vs : List Byte} {s t : State} (h : P [] todo s)
    (hgo : readAddrs todo s = .going vs t) : P vs [] t := by
  have := readAddrs_meets (Q := fun _ => True) switchOk (fun _ _ _ _ _ _ _ _ => trivial)
    (fun _ _ _ _ _ _ _ => trivial) readByte (fun _ _ _ _ _ _ _ _ => trivial) (fun _ _ _ _ _ _ _ => trivial)
    todo [] s h
  rwa [hgo] at this

/-! ### The reference device -/

theorem refMem_append (p : Params) (E : LogicalAddr → Byte) (g : Byte) (x y : List Call) :
    refMem p E g (x ++ y) = (refMem p E g x).bind fun g' => refMem p E g' y :=
  List.foldlM_append

/-- A window read of the device, once its register maps the address's bank, answers the address's byte (R46, R47). -/
theorem windowCell_targetBank_physAddr (a : LogicalAddr) : windowCell (targetBank a) (physAddr a) = a := by
  have h : ∀ a : BitVec 8, BitVec.ofBool (a.getLsbD 7) ++ (0x80#8 + (a &&& 0x7F#8)).extractLsb' 0 7 = a := by decide
  exact h a

theorem physAddr_getLsbD_seven (a : LogicalAddr) : (physAddr a).getLsbD 7 = true := by
  have h : ∀ a : BitVec 8, (0x80#8 + (a &&& 0x7F#8)).getLsbD 7 = true := by decide
  exact h a

section
variable {p : Params} {E : LogicalAddr → Byte} {g g' v : Byte}

theorem refMem_initialise (h : refMem p E g [.read .mem p.gconfAddr (some (.byte v))] = some g') : v = g ∧ g = g' := by
  simpa [refMem, refMemCall] using h

theorem refMem_switch (duration : Nat) :
    refMem p E g [.write .mem p.gconfAddr v (some .ok), .sleep duration] = some v := by
  simp [refMem, refMemCall]

theorem refMemCall_readWindow {a : LogicalAddr} (hbank : targetBank a = p.bankOf g) :
    refMemCall p E g (.read .mem (physAddr a) (some (.byte v))) = if v = E a then some g else none := by
  rw [refMemCall, if_neg (p.physAddr_ne_gconfAddr a), if_pos (physAddr_getLsbD_seven a), ← hbank,
    windowCell_targetBank_physAddr]

theorem refMem_readByte {a : LogicalAddr} {duration : Nat} (hbank : targetBank a = p.bankOf g)
    (h : refMem p E g [.read .mem (physAddr a) (some (.byte v)), .sleep duration] = some g') :
    v = E a ∧ g = g' := by
  simp only [refMem, List.foldlM_cons, refMemCall_readWindow hbank] at h
  simpa [refMemCall, Option.bind_eq_some_iff] using h

end

/-- Since `s` some calls were made; if the reference device with register `g0` and memory `E` answered them, its register
is now the shadow, and the bytes `done` with those of the addresses `todo` are those of `addrs`. -/
def State.FollowsReference (s : State) (E : LogicalAddr → Byte) (g0 : Byte) (addrs : List LogicalAddr)
    (done : List Byte) (todo : List LogicalAddr) (t : State) : Prop :=
  t.params = s.params ∧ ∃ calls, t.trace = s.trace ++ calls ∧
    ∀ g, refMem s.params E g0 calls = some g → t.accessor.gconfShadow = g ∧ done ++ todo.map E = addrs.map E

section
variable {s t u : State} {E : LogicalAddr → Byte} {g0 : Byte} {addrs todo todo' : List LogicalAddr}
  {done done' : List Byte}

/-- More calls, told from the register the device has before them. -/
theorem State.FollowsReference.calls {calls : List Call} (h : s.FollowsReference E g0 addrs done todo t)
    (hparams : u.params = t.params) (htrace : u.trace = t.trace ++ calls)
    (hcalls : ∀ g, refMem t.params E t.accessor.gconfShadow calls = some g →
      u.accessor.gconfShadow = g ∧ done' ++ todo'.map E = done ++ todo.map E) :
    s.FollowsReference E g0 addrs done' todo' u := by
  obtain ⟨hparams', calls', htrace', href⟩ := h
  refine ⟨hparams.trans hparams', calls' ++ calls, by rw [htrace, htrace', List.append_assoc], fun g hg => ?_⟩
  rw [refMem_append, Option.bind_eq_some_iff] at hg
  obtain ⟨g', hbefore, hafter⟩ := hg
  obtain ⟨hshadow, hbytes⟩ := href g' hbefore
  rw [← hshadow, ← hparams'] at hafter
  obtain ⟨hshadow', hbytes'⟩ := hcalls g hafter
  exact ⟨hshadow', hbytes'.trans hbytes⟩

theorem State.FollowsReference.lazyInit (hstart : s.accessor.bankValid = false ∨ s.accessor.gconfShadow = g0)
    (h : s.lazyInit = .going () t) : s.FollowsReference E g0 addrs [] addrs t := by
  obtain ⟨hv, h1⟩ | ⟨-, g, hr, h1⟩ | ⟨-, e, -, h1⟩ | ⟨-, -, h1⟩ := s.lazyInit_cases
  · have hshadow : s.accessor.gconfShadow = g0 := hstart.resolve_left (by simp [hv])
    cases h1.symm.trans h
    exact ⟨rfl, [], (List.append_nil _).symm, fun g hg => ⟨hshadow.trans (Option.some.inj hg), rfl⟩⟩
  · cases h1.symm.trans h
    refine ⟨rfl, _, s.initialised_trace g, fun g' hg => ?_⟩
    rw [hr] at hg
    obtain ⟨hread, hkept⟩ := refMem_initialise hg
    exact ⟨hread.trans hkept, rfl⟩
  · exact nomatch h1.symm.trans h
  · exact nomatch h1.symm.trans h

theorem readAddrs_followsReference {vs : List Byte} (h : s.FollowsReference E g0 addrs [] todo t)
    (hgo : readAddrs todo t = .going vs u) : s.FollowsReference E g0 addrs vs [] u := by
  refine readAddrs_going_induct (P := s.FollowsReference E g0 addrs) ?switchOk ?readByte h hgo
  case switchOk =>
    intro done a rest t h _ hw
    refine h.calls rfl ((t.switched_trace _).trans (List.append_assoc ..)) fun g hg => ⟨?_, rfl⟩
    rw [hw] at hg
    exact Option.some.inj ((refMem_switch _).symm.trans hg)
  case readByte =>
    intro done a rest t v h hbank hr
    refine h.calls rfl (List.append_assoc ..) fun g hg => ?_
    rw [State.bus_mem, hr] at hg
    obtain ⟨rfl, hkept⟩ := refMem_readByte hbank hg
    exact ⟨hkept, List.append_assoc ..⟩

end

/-- Settles O42: initialisation, bank switches and byte reads keep the shadow equal to the device's register, so each byte
read is that of its address. -/
theorem readblockReturnsReferenceMemory : Obligations.ReadblockReturnsReferenceMemory := by
  intro s t base length vs calls E g0 g1 h0 hr h hok htrace hstart href
  cases h
  obtain ⟨s1, s2, hinit, hloop, hend⟩ := readBlock_ok h0 hr hok
  obtain ⟨-, calls', htrace', hfollows⟩ := readAddrs_followsReference (.lazyInit hstart hinit) hloop
  rw [hend] at htrace ⊢
  obtain rfl := List.append_cancel_left (htrace.symm.trans htrace')
  obtain ⟨hshadow, hbytes⟩ := hfollows g1 href
  refine ⟨?_, hshadow⟩
  rw [List.map_nil, List.append_nil, blockAddrs_eq_map, List.map_map] at hbytes
  exact hbytes

end Machine
end Sys2Proof
end

section
/-! SUPPORT. Proofs/Reread: a READBLOCK with `bank_valid` = 0 reads GCONF_ADDR first (R57, R135). -/

namespace Sys2Proof.Machine

/-- After its initialising read a READBLOCK does what it does from a valid shadow (R135). -/
theorem readBlock_initialised {s : State} {base : LogicalAddr} {length : BitVec 16} (hv : s.accessor.bankValid = false)
    (h0 : length ≠ 0#16) (hr : base.toNat + length.toNat ≤ 256) {g : Byte}
    (ha : s.memBus.nextRead .mem = some (.byte g)) :
    readBlock base length s = readBlock base length (s.initialised g) := by
  rw [readBlock_initByte hv h0 hr ha, readBlock_inRange _ _ _ h0 hr]
  rfl

theorem readBlock_reads_gconf_first {s : State} {base : LogicalAddr} {length : BitVec 16}
    (hv : s.accessor.bankValid = false) (h0 : length ≠ 0#16) (hr : base.toNat + length.toNat ≤ 256) :
    ∃ more, (readBlock base length s).trace =
      s.trace ++ .read .mem s.params.gconfAddr (s.memBus.nextRead .mem) :: more := by
  rcases ha : s.memBus.nextRead .mem with _ | (g | e)
  · exact ⟨[], by rw [readBlock_initSilent hv h0 hr ha, ← ha]; rfl⟩
  · obtain ⟨-, -, -, -, -, more, htrace, -⟩ := readBlock_frame base length (s.initialised g)
    exact ⟨more, by rw [readBlock_initialised hv h0 hr ha, htrace, State.initialised_trace, ha, ← List.append_cons]⟩
  · exact ⟨[], by rw [readBlock_initError hv h0 hr ha, ← ha]; rfl⟩

/-- Settles O45: INVALIDATE clears `bank_valid` and leaves the MEM transport as it was. -/
theorem invalidateForcesReread : Obligations.InvalidateForcesReread := by
  intro s t u base length h0 hr ht hu
  cases ht
  cases hu
  simpa using readBlock_reads_gconf_first (s := s.dropShadow.respond (.ok [])) s.dropShadow_bankValid h0 hr

end Sys2Proof.Machine
end

section
/-! SUPPORT. Proofs/Translation: bank, offset and physical address of a logical address (R46, R47). -/

namespace Sys2Proof

theorem bankOffset_toNat (a : LogicalAddr) : (bankOffset a).toNat = a.toNat % 128 := by
  rw [bankOffset, BitVec.toNat_and]
  exact Nat.and_two_pow_sub_one_eq_mod a.toNat 7

/-- The two logical addresses of one offset, one in each bank, share a physical address (R47). -/
theorem physAddr_add_128 (a : LogicalAddr) : physAddr (a + 128#8) = physAddr a := by
  apply BitVec.eq_of_toNat_eq
  rw [physAddr_toNat, physAddr_toNat, BitVec.toNat_add, BitVec.toNat_ofNat]
  omega

/-- Settles O7: each clause is the lemma of its name, and `phys` stays at or above 0x80. -/
theorem translationOfEveryAddress : Obligations.TranslationOfEveryAddress := fun a =>
  ⟨targetBank_eq a, bankOffset_toNat a, physAddr_toNat a, physAddr_add_128 a, le_physAddr a⟩

end Sys2Proof
end

section
/-! SUPPORT. Proofs/CommandWords: decoding and encoding are inverse to each other (R80, R81, R85, R131). -/

namespace Sys2Proof

/-- The SCAN row, which the decoder asks first, covers no word that the READBLOCK row covers (R81). -/
theorem decode_of_readblock_masked {w : CmdWord} (h : w &&& 0xFF000000#32 = 0x20000000#32) :
    decode w = .command (.readblock (baseField w) (lengthField w)) := by
  have hscan : w &&& 0xFFFFFFFF#32 ≠ 0x10000000#32 := by
    intro hw
    obtain rfl : w = 0x10000000#32 := BitVec.and_allOnes.symm.trans hw
    exact absurd h (by decide)
  rw [decode, if_neg hscan, if_pos h]

theorem baseField_encode_readblock (base : LogicalAddr) (length : BitVec 16) :
    baseField (encode (.readblock base length)) = base := by
  have hbase := base.isLt
  apply BitVec.eq_of_toNat_eq
  rw [baseField, BitVec.extractLsb'_toNat, encode_readblock_toNat, Nat.shiftRight_eq_div_pow]
  omega

theorem lengthField_encode_readblock (base : LogicalAddr) (length : BitVec 16) :
    lengthField (encode (.readblock base length)) = length := by
  have hbase := base.isLt
  have hlength := length.isLt
  apply BitVec.eq_of_toNat_eq
  rw [lengthField, BitVec.extractLsb'_toNat, encode_readblock_toNat, Nat.shiftRight_eq_div_pow]
  omega

/-- Settles O2: a READBLOCK word is covered by its row and carries its operands in the fields the decoder reads; the two
other commands have one word each. -/
theorem decodeReadsEncode : Obligations.DecodeReadsEncode := by
  intro i
  cases i with
  | scan => decide
  | readblock base length =>
    rw [decode_of_readblock_masked (encode_readblock_masked base length), baseField_encode_readblock,
      lengthField_encode_readblock]
  | invalidate => decide

/-- Settles O3: the masks and the fields of a row together leave out no bit. -/
theorem encodeRestoresWord : Obligations.EncodeRestoresWord := fun _ _ => encode_of_decode

/-- Settles O1: each listed word is a closed term. -/
theorem commandWordsDecode : Obligations.CommandWordsDecode := by
  unfold Obligations.CommandWordsDecode
  decide

end Sys2Proof
end

section
/-! SUPPORT. Proofs/IllegalWords: the words no row of the opcode map covers (R81, R82), and what an idle block does with a
word on its command port (R80, R172). -/

namespace Sys2Proof

/-! ### Covered words -/

/-- The READBLOCK row covers the words whose top byte is 0x20, and those are the READBLOCKs of their fields. -/
theorem readblock_masked_iff (w : CmdWord) : w &&& 0xFF000000#32 = 0x20000000#32 ↔ w.toNat / 2 ^ 24 = 0x20 := by
  refine ⟨toNat_div_of_readblock_masked, fun htop => ?_⟩
  have hfields : w = encode (.readblock (baseField w) (lengthField w)) := by
    apply BitVec.eq_of_toNat_eq
    rw [encode_readblock_toNat]
    simp only [baseField, lengthField, BitVec.extractLsb'_toNat, Nat.shiftRight_eq_div_pow]
    omega
  rw [hfields]
  exact encode_readblock_masked _ _

/-- The rows of the opcode map, in the decoder's own tests (R81). -/
theorem CmdWord.wellFormed_iff (w : CmdWord) :
    CmdWord.wellFormed w = true ↔
      w &&& 0xFFFFFFFF#32 = 0x10000000#32 ∨ w &&& 0xFF000000#32 = 0x20000000#32 ∨
      w &&& 0xFFFFFFFF#32 = 0x30000000#32 := by
  simp only [CmdWord.wellFormed, opcodeMap, OpcodeRow.covers, List.any_cons, List.any_nil, Bool.or_false, Bool.or_eq_true,
    beq_iff_eq]

/-- The decoder reads a command exactly from the words some row covers (R81). -/
theorem decode_command_or_illegal (w : CmdWord) :
    (CmdWord.wellFormed w = true ∧ ∃ i, decode w = .command i) ∨
    (CmdWord.wellFormed w = false ∧ ∃ why, decode w = .illegal why) := by
  rw [← Bool.not_eq_true, CmdWord.wellFormed_iff, decode]
  split
  · rename_i h
    exact .inl ⟨.inl h, _, rfl⟩
  split
  · rename_i h
    exact .inl ⟨.inr (.inl h), _, rfl⟩
  split
  · rename_i h
    exact .inl ⟨.inr (.inr h), _, rfl⟩
  · rename_i hscan hread hinvalidate
    exact .inr ⟨by simp [hread, hscan, hinvalidate], _, rfl⟩

theorem decode_illegal_iff (w : CmdWord) : (∃ why, decode w = .illegal why) ↔ CmdWord.wellFormed w = false := by
  obtain ⟨hwf, i, hi⟩ | ⟨hwf, hwhy⟩ := decode_command_or_illegal w
  · simp [hwf, hi]
  · simp [hwf, hwhy]

/-- The covered words as numbers (R81): SCAN's and INVALIDATE's, and every number whose top byte is 0x20. -/
theorem CmdWord.wellFormed_iff_toNat (w : CmdWord) :
    CmdWord.wellFormed w = true ↔ w.toNat = 0x10000000 ∨ w.toNat / 2 ^ 24 = 0x20 ∨ w.toNat = 0x30000000 := by
  have hall : w &&& 0xFFFFFFFF#32 = w := BitVec.and_allOnes
  rw [CmdWord.wellFormed_iff, hall, readblock_masked_iff, ← BitVec.toNat_inj, ← BitVec.toNat_inj]
  rfl

/-- The classes of R82, as the complement of the covered words. -/
theorem CmdWord.wellFormed_eq_false_iff (w : CmdWord) :
    CmdWord.wellFormed w = false ↔
      opField w = 0x0#4 ∨ 4 ≤ (opField w).toNat ∨
      ((opField w = 0x1#4 ∨ opField w = 0x3#4) ∧ w.extractLsb' 0 28 ≠ 0#28) ∨
      (opField w = 0x2#4 ∧ w.extractLsb' 24 4 ≠ 0#4) := by
  have hlt := w.isLt
  rw [← Bool.not_eq_true, CmdWord.wellFormed_iff_toNat]
  simp only [opField, ne_eq, ← BitVec.toNat_inj, BitVec.extractLsb'_toNat, BitVec.toNat_ofNat, Nat.shiftRight_eq_div_pow]
  omega

end Sys2Proof

namespace Sys2Proof.Machine

/-! ### The step of an idle block with a word on its port -/

section
variable {s : State} {w : CmdWord} {rest : List HostAction} (hidle : s.phase = .idle) (hhost : s.host = .present w :: rest)
include hidle hhost

theorem step_of_command {i : Instr} (h : decode w = .command i) : step s = exec i { s with host := rest } := by
  simp [step, State.fetch, hidle, hhost, h]

theorem step_of_illegal {why : IllegalWord} (h : decode w = .illegal why) :
    step s = .next (State.refuseWord { s with host := rest }) := by
  simp [step, State.fetch, hidle, hhost, h]

end

/-- Settles O4: the decoder refuses the words no row covers; as numbers those are the classes of R82; and refusing a word
only sends a response. -/
theorem illegalWordsRefused : Obligations.IllegalWordsRefused := by
  refine fun w => ⟨decode_illegal_iff w, CmdWord.wellFormed_eq_false_iff w, fun s rest hidle hhost hwf => ?_⟩
  obtain ⟨why, hwhy⟩ := (decode_illegal_iff w).mpr hwf
  exact step_of_illegal hidle hhost hwhy

theorem decode_of_instr? {d : Decoded} {i : Instr} (h : d.instr? = some i) : d = .command i := by
  cases d with
  | command j => cases h; rfl
  | illegal why => cases h

/-- Settles O10: `withFetchWord` presents the word `decodeTableWord` decodes. -/
theorem stepRunsDecodedCommand : Obligations.StepRunsDecodedCommand :=
  ⟨fun _ _ _ _ hidle hhost h => step_of_command hidle hhost h,
    fun _ _ _ _ h => step_of_command rfl rfl (decode_of_instr? h)⟩

end Sys2Proof.Machine
end

section
/-! SUPPORT. Proofs/DataBytes: bits of the event byte, the pressed mask and the row-select byte (R71, R72, R84). -/

namespace Sys2Proof

theorem pressedMask_getLsbD (c : Byte) {j : Nat} (hj : j < 8) : (pressedMask c).getLsbD j = !c.getLsbD j := by
  simp [pressedMask, hj]

/-- The row-select byte is active low and one-hot (R72). -/
theorem rowSelect_getLsbD (r : Row) {j : Nat} (hj : j < 8) : (rowSelect r).getLsbD j = !decide (j = r.val) := by
  rw [rowSelect, ← BitVec.twoPow_eq, BitVec.getLsbD_not, BitVec.getLsbD_twoPow]
  simp [hj, eq_comm]

/-- Settles O6: the bit rule of each byte; the table of R72 lists eight closed terms. -/
theorem columnAndRowEncodings : Obligations.ColumnAndRowEncodings :=
  ⟨fun c _ => pressedMask_getLsbD c, fun r _ hj => by simp [rowSelect_getLsbD r hj], by decide⟩

end Sys2Proof

namespace Sys2Proof.Machine

/-- A key number has six bits (R70). -/
theorem ofNat_key_eq_append (key : Key) : BitVec.ofNat 8 key.val = 0#2 ++ BitVec.ofNat 6 key.val := by
  have hkey := key.isLt
  apply BitVec.eq_of_toNat_eq
  rw [BitVec.toNat_append, BitVec.toNat_ofNat, BitVec.toNat_ofNat, BitVec.toNat_ofNat, Nat.zero_mod, Nat.zero_shiftLeft,
    Nat.zero_or]
  omega

/-- The layout of an event byte: bits 7:6 are 01 for Down and 00 for Up, below them the key (R84). -/
theorem KeyEvent.byte_eq_append (ev : KeyEvent) :
    ev.byte = (if ev.transition = .down then 1#2 else 0#2) ++ BitVec.ofNat 6 ev.key.val := by
  obtain ⟨key, transition⟩ := ev
  cases transition with
  | down =>
    calc 0x40#8 ||| BitVec.ofNat 8 key.val
        = (1#2 ++ 0#6) ||| (0#2 ++ BitVec.ofNat 6 key.val) := by rw [ofNat_key_eq_append]; rfl
      _ = 1#2 ++ BitVec.ofNat 6 key.val := by rw [BitVec.or_append, BitVec.or_zero, BitVec.zero_or]
  | up => exact ofNat_key_eq_append key

/-- Settles O5: each field is read off the layout of the byte. -/
theorem eventByteFields : Obligations.EventByteFields := by
  intro ev
  rw [KeyEvent.byte_eq_append]
  refine ⟨?_, ?_, ?_⟩
  · rw [BitVec.getLsbD_append, if_neg (by decide)]
    cases ev.transition <;> rfl
  · rw [BitVec.getLsbD_append, if_neg (by decide)]
    cases ev.transition <;> decide
  · rw [BitVec.extractLsb'_append_eq_right, BitVec.toNat_ofNat]
    exact Nat.mod_eq_of_lt ev.key.isLt

end Sys2Proof.Machine
end

section
/-! SUPPORT. Proofs/ResponseForm: a command sends one response of R83's form, or is left unfinished and sends none. -/

namespace Sys2Proof.Machine

/-! ### The four responses (R83) -/

theorem Response.wellFormed_ok {payload : List Byte} (h : payload.length ≤ 256) : (Response.ok payload).wellFormed := by
  refine ⟨by simp [Response.ok], ?_, h, fun hne => absurd rfl hne, by simp [Response.ok]⟩
  exact Nat.mod_eq_of_lt (by simp; omega)

theorem Response.wellFormed_transportError (e : TErr) : (Response.transportError e).wellFormed := by
  simp [Response.wellFormed, Response.transportError]

theorem Response.wellFormed_rangeError : Response.rangeError.wellFormed := by
  simp [Response.wellFormed, Response.rangeError]

theorem Response.wellFormed_illegalCommand : Response.illegalCommand.wellFormed := by
  simp [Response.wellFormed, Response.illegalCommand]

/-! ### The commands -/

/-- From `s` to `t` the command has sent one response of R83's form, or is left unfinished and has sent none (R41). -/
def State.Answers (s t : State) : Prop :=
  (∃ r : Response, r.wellFormed ∧ t.responses = s.responses ++ [r]) ∨
    (t.phase = .unfinished ∧ t.responses = s.responses)

/-- A command that has sent nothing yet answers by sending a well-formed response. -/
theorem State.answers_respond {s t : State} {r : Response} (ht : t.responses = s.responses) (hr : r.wellFormed) :
    s.Answers (t.respond r) := .inl ⟨r, hr, by rw [State.respond_responses, ht]⟩

/-- ENCODE lists at most 64 keys (R161). -/
theorem length_encodeMask_le (m : Snapshot) : (encodeMask m).length ≤ 64 := by
  rw [encodeMask, encodeLoop_eq_take]
  exact List.length_take_le ..

/-- At most 64 Down and 64 Up events, so a SCAN's payload is below R83's bound in every state. -/
theorem Scanner.length_events_le {n : Nat} (sc : Scanner n) : sc.events.length ≤ 128 := by
  have hdown := length_encodeMask_le sc.downMask
  have hup := length_encodeMask_le sc.upMask
  simp only [Scanner.events, List.length_append, List.length_map]
  omega

/-- SCAN answers its events or the error of its failed call (R103, R113, R114). -/
theorem execScan_answers {s t : State} (h : execScan s = .next t) : s.Answers t := by
  obtain ⟨c, hr, hw⟩ | ⟨e, hr⟩ | ⟨c, e, hr, hw⟩ | hr | ⟨c, hr, hw⟩ := execScan_cases s
  · rw [execScan_ok s c hr hw] at h
    cases h
    have hlength := (s.scanner.fileSample c).length_events_le
    exact .inl ⟨_, Response.wellFormed_ok (by rw [List.length_map]; omega), rfl⟩
  · rw [execScan_readError s e hr] at h
    cases h
    exact .inl ⟨_, Response.wellFormed_transportError e, rfl⟩
  · rw [execScan_writeError s c e hr hw] at h
    cases h
    exact .inl ⟨_, Response.wellFormed_transportError e, rfl⟩
  · rw [execScan_readSilent s hr] at h
    cases h
    exact .inr ⟨rfl, rfl⟩
  · rw [execScan_writeSilent s c hr hw] at h
    cases h
    exact .inr ⟨rfl, rfl⟩

/-- READBLOCK sends nothing before its last byte, its first error or its first silent call (R132). -/
theorem readBlock_answers (base : LogicalAddr) (length : BitVec 16) (s : State) : s.Answers (readBlock base length s) := by
  refine readBlock_induct (P := fun t => t.responses = s.responses) base length s rfl ?initOk ?switchOk ?readByte
    ?readError ?readSilent ?switchError ?switchSilent ?success ?rangeError
  case initOk => exact fun _ _ ht _ _ => ht
  case switchOk => exact fun _ _ ht _ _ => ht
  case readByte => exact fun _ _ _ ht _ => ht
  case readError => exact fun _ _ e ht _ _ => State.answers_respond ht (Response.wellFormed_transportError e)
  case readSilent => exact fun _ _ ht _ _ => .inr ⟨rfl, ht⟩
  case switchError => exact fun _ _ e ht _ => State.answers_respond ht (Response.wellFormed_transportError e)
  case switchSilent => exact fun _ _ ht _ => .inr ⟨rfl, ht⟩
  case success => exact fun _ _ ht hlength => State.answers_respond ht (Response.wellFormed_ok hlength)
  case rangeError => exact fun _ => State.answers_respond rfl Response.wellFormed_rangeError

@[simp] theorem State.dropShadow_responses (s : State) : s.dropShadow.responses = s.responses := by
  unfold State.dropShadow; split <;> rfl

theorem exec_answers {i : Instr} {s t : State} (h : exec i s = .next t) : s.Answers t := by
  cases i with
  | scan => exact execScan_answers h
  | readblock base length => cases h; exact readBlock_answers base length s
  | invalidate => cases h; exact State.answers_respond s.dropShadow_responses (Response.wellFormed_ok (Nat.zero_le _))

/-- No command takes a host action: the step does (R80). -/
theorem exec_host {i : Instr} {s t : State} (h : exec i s = .next t) : t.host = s.host := by
  cases i with
  | scan =>
    obtain ⟨-, -, -, hhost, -⟩ := execScan_frame h
    exact hhost
  | readblock base length =>
    cases h
    obtain ⟨-, -, -, hhost, -⟩ := readBlock_frame base length s
    exact hhost
  | invalidate => cases h; exact s.dropShadow_host

theorem State.Answers.responsesWellFormed {s t : State} (h : s.Answers t) (hs : s.responsesWellFormed) :
    t.responsesWellFormed := by
  obtain ⟨r, hr, heq⟩ | ⟨-, heq⟩ := h
  · rw [State.responsesWellFormed, heq]
    exact List.forall_mem_append.mpr ⟨hs, List.forall_mem_singleton.mpr hr⟩
  · rw [State.responsesWellFormed, heq]
    exact hs

/-- Settles O51: reset starts the responses afresh, and a command or a refusal adds at most one well-formed response. -/
theorem stepSendsWellFormedResponses : Obligations.StepSendsWellFormedResponses := by
  intro s t hs h
  obtain ⟨-, ⟨-, rfl⟩ | ⟨rest, -, rfl⟩ | ⟨w, i, rest, -, -, hexec⟩ | ⟨w, why, rest, -, -, rfl⟩⟩ := step_cases s h
  · exact hs
  · exact List.forall_mem_nil _
  · exact (exec_answers hexec).responsesWellFormed hs
  · exact (State.answers_respond rfl Response.wellFormed_illegalCommand).responsesWellFormed hs

/-- Settles O14: an idle block sends one response to a word, the command's or the refusal's. -/
theorem oneResponsePerCommand : Obligations.OneResponsePerCommand := by
  intro s t w rest hidle hhost h ht
  rcases hdecode : decode w with i | why
  · rw [step_of_command hidle hhost hdecode] at h
    refine ⟨exec_host h, (exec_answers h).resolve_right fun hsilent => ?_⟩
    simp [ht] at hsilent
  · rw [step_of_illegal hidle hhost hdecode] at h
    cases h
    exact ⟨rfl, .illegalCommand, Response.wellFormed_illegalCommand, rfl⟩

end Sys2Proof.Machine
end

section
/-! SUPPORT. Proofs/RowCommit: one step as the scanner sees it. Either a row-select write succeeds and a SCAN commits,
or none does and the step leaves the cursor and `stable`, or the block is reset (R103, R111, R113, R114, R200). -/

namespace Sys2Proof.Machine

/-! ### Calls without a successful row-select write -/

/-- No call is a write to the KEY device that answered ok. -/
def NoRowWritten (calls : List Call) : Prop := ∀ a v, Call.write .key a v (some .ok) ∉ calls

theorem noRowWritten_of_on_mem {calls : List Call} (h : ∀ c ∈ calls, c.on .mem = true ∨ c.isSleep = true) :
    NoRowWritten calls := fun a v hc => by simpa [Call.on, Call.isSleep] using h _ hc

theorem rowWrites_eq_nil {calls : List Call} (h : NoRowWritten calls) : rowWrites calls = [] := by
  refine List.filterMap_eq_nil_iff.mpr fun c hc => ?_
  split
  · exact absurd hc (h _ _)
  · rfl

/-- Only a successful row-select write completes a sample (R117). -/
theorem sampleStep_snd {c : Call} (h : ∀ a v, c ≠ .write .key a v (some .ok)) (acc : Option Byte × List Byte) :
    (sampleStep acc c).2 = acc.2 := by
  unfold sampleStep
  split
  · rfl
  · exact absurd rfl (h _ _)
  · rfl

theorem samples_append_of_noRowWritten (x : List Call) {calls : List Call} (h : NoRowWritten calls) :
    samples (x ++ calls) = samples x := by
  refine samples_append_of_none x calls fun acc => ?_
  induction calls generalizing acc with
  | nil => rfl
  | cons c calls ih =>
    have hstep := sampleStep_snd (fun a v hc => h a v (hc ▸ List.mem_cons_self)) acc
    exact (ih (fun a v hc => h a v (List.mem_cons_of_mem c hc)) _).trans hstep

/-! ### What a step does to the scanner -/

/-- The step was a SCAN that succeeded with the column byte `c` (R103). -/
def State.RowCommitted (s t : State) (c : Byte) : Prop :=
  t.scanner = (s.scanner.fileSample c).commit ∧
  t.trace = s.trace ++ [.read .key s.params.colInAddr (some (.byte c)),
    .write .key s.params.rowOutAddr (rowSelect (s.scanner.row + 1)) (some .ok)]

/-- The step wrote no row select: of the scanner only the byte under the cursor may be another, which is the sample of a
SCAN that failed its write (R114). -/
def State.NoRowCommitted (s t : State) : Prop :=
  t.scanner.stable = s.scanner.stable ∧ t.scanner.row = s.scanner.row ∧ t.scanner.slot = s.scanner.slot ∧
  (∀ (r : Row) (j : Fin Config.slots), (r = s.scanner.row ∧ j = s.scanner.slot) ∨
    rowByte (t.scanner.hist.get j) r = rowByte (s.scanner.hist.get j) r) ∧
  ∃ calls, t.trace = s.trace ++ calls ∧ NoRowWritten calls

section
variable {s t : State}

theorem State.noRowCommitted_of_scanner_eq {calls : List Call} (hscanner : t.scanner = s.scanner)
    (htrace : t.trace = s.trace ++ calls) (hcalls : NoRowWritten calls) : s.NoRowCommitted t := by
  rw [NoRowCommitted, hscanner]
  exact ⟨rfl, rfl, rfl, fun _ _ => .inr rfl, calls, htrace, hcalls⟩

theorem State.noRowCommitted_of_fileSample {c : Byte} {calls : List Call}
    (hscanner : t.scanner = s.scanner.fileSample c) (htrace : t.trace = s.trace ++ calls)
    (hcalls : NoRowWritten calls) : s.NoRowCommitted t := by
  rw [NoRowCommitted, hscanner]
  refine ⟨rfl, rfl, rfl, fun r j => ?_, calls, htrace, hcalls⟩
  rw [Scanner.fileSample_rowByte]
  by_cases hcursor : r = s.scanner.row ∧ j = s.scanner.slot
  · exact .inl hcursor
  · exact .inr (if_neg fun h => hcursor ⟨h.2, h.1⟩)

theorem execScan_commits_or_not (h : execScan s = .next t) : (∃ c, s.RowCommitted t c) ∨ s.NoRowCommitted t := by
  obtain ⟨c, hr, hw⟩ | ⟨e, hr⟩ | ⟨c, e, hr, hw⟩ | hr | ⟨c, hr, hw⟩ := execScan_cases s
  · rw [execScan_ok s c hr hw] at h
    cases h
    exact .inl ⟨c, rfl, rfl⟩
  · rw [execScan_readError s e hr] at h
    cases h
    exact .inr (State.noRowCommitted_of_scanner_eq rfl rfl (by simp [NoRowWritten]))
  · rw [execScan_writeError s c e hr hw] at h
    cases h
    exact .inr (State.noRowCommitted_of_fileSample rfl rfl (by simp [NoRowWritten]))
  · rw [execScan_readSilent s hr] at h
    cases h
    exact .inr (State.noRowCommitted_of_scanner_eq rfl rfl (by simp [NoRowWritten]))
  · rw [execScan_writeSilent s c hr hw] at h
    cases h
    exact .inr (State.noRowCommitted_of_fileSample rfl rfl (by simp [NoRowWritten]))

theorem exec_commits_or_not {i : Instr} (h : exec i s = .next t) : (∃ c, s.RowCommitted t c) ∨ s.NoRowCommitted t := by
  cases i with
  | scan => exact execScan_commits_or_not h
  | readblock base length =>
    cases h
    obtain ⟨hscanner, -, -, -, -, calls, htrace, hcalls⟩ := readBlock_frame base length s
    exact .inr (State.noRowCommitted_of_scanner_eq hscanner htrace (noRowWritten_of_on_mem hcalls))
  | invalidate =>
    cases h
    exact .inr (State.noRowCommitted_of_scanner_eq (calls := []) s.dropShadow_scanner (by simp)
      (by simp [NoRowWritten]))

/-- Reset, a SCAN that commits, or a step without a successful row-select write. -/
theorem step_commits_or_not (h : step s = .next t) :
    (∃ s' : State, t = s'.resetBlock) ∨ (∃ c, s.RowCommitted t c) ∨ s.NoRowCommitted t := by
  have unchanged {u : State} (hscanner : u.scanner = s.scanner) (htrace : u.trace = s.trace) : s.NoRowCommitted u :=
    State.noRowCommitted_of_scanner_eq (calls := []) hscanner (by simp [htrace]) (by simp [NoRowWritten])
  obtain ⟨-, ⟨-, rfl⟩ | ⟨rest, -, rfl⟩ | ⟨w, i, rest, -, -, hexec⟩ | ⟨w, why, rest, -, -, rfl⟩⟩ := step_cases s h
  · exact .inr (.inr (unchanged rfl rfl))
  · exact .inl ⟨_, rfl⟩
  · exact .inr (exec_commits_or_not (s := { s with host := rest }) hexec)
  · exact .inr (.inr (unchanged rfl rfl))

end

/-! ### The cursor after `k` commits -/

/-- The cursor is where `k` successful SCANs since reset put it (R25, R111). -/
def Scanner.CursorAt {n : Nat} (sc : Scanner n) (k : Nat) : Prop := sc.row.val = k % 8 ∧ sc.slot.val = k / 8 % n

section
variable {n : Nat} (sc : Scanner n)

/-- `(row + 1) mod 8` (R111). -/
theorem Scanner.row_add_one_val : (sc.row + 1).val = (sc.row.val + 1) % 8 := Fin.val_add ..

/-- `(slot + 1) mod N` when the new row is 0 (R111). -/
theorem Scanner.nextSlot_val :
    sc.nextSlot.val = if (sc.row + 1).val = 0 then (sc.slot.val + 1) % n else sc.slot.val := by
  have hwrap : sc.nextRow = 0 ↔ (sc.row + 1).val = 0 := Fin.ext_iff
  rw [nextSlot]
  simp only [hwrap]
  split <;> rfl

variable {sc}

theorem Scanner.CursorAt.commit {k : Nat} (h : sc.CursorAt k) (c : Byte) :
    (sc.fileSample c).commit.CursorAt (k + 1) := by
  obtain ⟨hrow, hslot⟩ := h
  have hrow' : (sc.row + 1).val = (k + 1) % 8 := by
    rw [sc.row_add_one_val, hrow, Nat.mod_add_mod]
  refine ⟨hrow', ?_⟩
  rw [commit_slot, fileSample_nextSlot, sc.nextSlot_val, hrow', hslot]
  split
  · rw [Nat.mod_add_mod, show (k + 1) / 8 = k / 8 + 1 by omega]
  · rw [show (k + 1) / 8 = k / 8 by omega]

end

end Sys2Proof.Machine
end

section
/-! SUPPORT. Proofs/RowCycle: every step keeps the row cycle (R120, R25). -/

namespace Sys2Proof.Machine

variable {s t : State}

theorem State.rowCycle.of_noRowCommitted (hs : s.rowCycle) (h : s.NoRowCommitted t) : t.rowCycle := by
  obtain ⟨-, hrow, hslot, -, calls, htrace, hcalls⟩ := h
  rw [State.rowCycle, hrow, hslot, htrace, rowWrites_append, rowWrites_eq_nil hcalls, List.append_nil]
  exact hs

/-- A successful SCAN writes the row select of the next row of the cycle. -/
theorem State.rowCycle.of_rowCommitted {c : Byte} (hs : s.rowCycle) (h : s.RowCommitted t c) : t.rowCycle := by
  obtain ⟨hwrites, hcursor⟩ := hs
  obtain ⟨hscanner, htrace⟩ := h
  have hwrites' : rowWrites t.trace = rowWrites s.trace ++ [rowSelect (s.scanner.row + 1)] := by
    rw [htrace, rowWrites_append]
    rfl
  have hlength : (rowWrites t.trace).length = (rowWrites s.trace).length + 1 := by
    rw [hwrites', List.length_append, List.length_singleton]
  have hcursor' : t.scanner.CursorAt (rowWrites t.trace).length := by
    rw [hscanner, hlength]
    exact Scanner.CursorAt.commit hcursor c
  refine ⟨?_, hcursor'⟩
  have hnext : s.scanner.row + 1 = Fin.ofNat 8 ((rowWrites s.trace).length + 1) := by
    rw [← hlength, ← Fin.val_inj, Fin.val_ofNat, ← hcursor'.1, hscanner]
    rfl
  rw [hlength, List.range_succ, List.map_append, ← hwrites, hwrites', hnext]
  rfl

/-- Settles O48: only a successful SCAN lengthens the list of row-select writes, by the row it moves the cursor to. -/
theorem stepKeepsRowCycle : Obligations.StepKeepsRowCycle := by
  intro s t hs h
  obtain ⟨s', rfl⟩ | ⟨c, hcommit⟩ | hnone := step_commits_or_not h
  · exact State.rowCycle_reset
  · exact hs.of_rowCommitted hcommit
  · exact hs.of_noRowCommitted hnone

end Sys2Proof.Machine
end

section
/-! SUPPORT. Proofs/ClosedForm: every step keeps the closed form of the debounce filter (R117). -/

namespace Sys2Proof.Machine

/-! ### A list stored in a ring -/

/-- The last element of `xs` stored in slot `j` of a ring of `n`, where element `i` is stored in slot `i % n`; 0 if
there is none. -/
def lastStored (n j : Nat) (xs : List Byte) : Byte := ((every n j xs).getLast?).getD 0#8

theorem lastStored_append (n j : Nat) (xs : List Byte) (p : Byte) :
    lastStored n j (xs ++ [p]) = if xs.length % n = j then p else lastStored n j xs := by
  rw [lastStored, every_append]
  split
  · rw [List.getLast?_concat, Option.getD_some]
  · rw [List.append_nil, lastStored]

/-- A slot holds an element that is among the last `n`. -/
theorem lastStored_getLsbD {n : Nat} (hn : 0 < n) (j : Nat) (xs : List Byte) (m : Nat) :
    (lastStored n j xs).getLsbD m = true ↔
      ∃ i, i % n = j ∧ xs.length ≤ i + n ∧ ∃ b, xs[i]? = some b ∧ b.getLsbD m = true := by
  induction xs using List.reverseRecOn with
  | nil => simp [lastStored, every]
  | append_singleton xs p ih =>
    have hlast : (xs ++ [p])[xs.length]? = some p := List.getElem?_concat_length
    rw [lastStored_append, List.length_append, List.length_singleton]
    split
    · rename_i hj
      constructor
      · exact fun hp => ⟨xs.length, hj, by omega, p, hlast, hp⟩
      · rintro ⟨i, hi, hle, b, hb, hbit⟩
        have hlt : i < xs.length + 1 := by
          simpa using (List.getElem?_eq_some_iff.mp hb).1
        have hmod : (xs.length - i) % n = 0 := Nat.sub_mod_eq_zero_of_mod_eq (hj.trans hi.symm)
        rw [Nat.mod_eq_of_lt (by omega)] at hmod
        obtain rfl : i = xs.length := by omega
        obtain rfl : p = b := Option.some.inj (hlast.symm.trans hb)
        exact hbit
    · rename_i hj
      refine ih.trans (exists_congr fun i => and_congr_right fun hi => ?_)
      have hne : i ≠ xs.length := fun h => hj (h ▸ hi)
      have hne' : i + n ≠ xs.length := fun h => hj (by rw [← h, Nat.add_mod_right, hi])
      have hsame : (xs ++ [p])[i]? = xs[i]? := by
        rcases Nat.lt_or_gt_of_ne hne with hlt | hgt
        · exact List.getElem?_append_left hlt
        · rw [List.getElem?_eq_none (by simp; omega), List.getElem?_eq_none (by omega)]
      rw [hsame]
      exact and_congr_left fun _ => by omega

theorem orAll_getLsbD (xs : List Byte) (m : Nat) :
    (orAll xs).getLsbD m = true ↔ ∃ b ∈ xs, b.getLsbD m = true := by
  have hfold : ∀ acc : Byte, (xs.foldl (· ||| ·) acc).getLsbD m = (acc.getLsbD m || xs.any (·.getLsbD m)) := by
    induction xs with
    | nil => simp
    | cons b xs ih => exact fun acc => by simp [ih, Bool.or_assoc]
  rw [orAll, hfold]
  simp

/-- The OR of the last `n` elements is the OR of the ring's slots. -/
theorem orAll_lastN_getLsbD {n : Nat} (hn : 0 < n) (xs : List Byte) (m : Nat) :
    (orAll (lastN n xs)).getLsbD m = true ↔ ∃ j : Fin n, (lastStored n j.val xs).getLsbD m = true := by
  simp only [orAll_getLsbD, lastN, List.mem_iff_getElem?, List.getElem?_drop, lastStored_getLsbD hn]
  constructor
  · rintro ⟨b, ⟨i, hb⟩, hbit⟩
    exact ⟨⟨_, Nat.mod_lt (xs.length - n + i) hn⟩, xs.length - n + i, rfl, by omega, b, hb, hbit⟩
  · rintro ⟨j, i, -, hle, b, hb, hbit⟩
    exact ⟨b, ⟨i - (xs.length - n), by rwa [Nat.add_sub_cancel' (by omega)]⟩, hbit⟩

/-! ### The visits of a row -/

theorem length_every {α : Type} (m r : Nat) (xs : List α) :
    (every m r xs).length = Nat.count (· % m = r) xs.length := by
  induction xs using List.reverseRecOn with
  | nil => rfl
  | append_singleton xs a ih =>
    rw [every_append, List.length_append, ih, List.length_append, List.length_singleton, Nat.count_succ]
    split <;> rfl

/-- Before the next visit of its row, element `xs.length % m` of the cycle has been visited `xs.length / m` times. -/
theorem length_every_next {α : Type} {m : Nat} (hm : 0 < m) (xs : List α) :
    (every m (xs.length % m) xs).length = xs.length / m := by
  rw [length_every]
  exact (Nat.count_modEq_card xs.length hm xs.length).trans (by simp)

/-! ### The filter -/

/-- The slots, but for the byte under the cursor, hold the last visits stored in them. -/
def State.holdsVisits (s : State) : Prop :=
  ∀ (r : Row) (j : Fin Config.slots), (r = s.scanner.row ∧ j = s.scanner.slot) ∨
    rowByte (s.scanner.hist.get j) r = lastStored Config.slots j.val (visits r s.trace)

section
variable {s t : State}

theorem State.debounced.of_noRowCommitted (hs : s.debounced) (h : s.NoRowCommitted t) : t.debounced := by
  obtain ⟨hrow, hslot, hstable, hvisits⟩ := hs
  obtain ⟨hstable', hrow', hslot', hhist, calls, htrace, hcalls⟩ := h
  have hsamples : samples t.trace = samples s.trace := by rw [htrace, samples_append_of_noRowWritten _ hcalls]
  have hsame (r : Row) : visits r t.trace = visits r s.trace := congrArg (every 8 r.val) hsamples
  simp only [State.debounced, hsamples, hsame, hstable', hrow', hslot']
  refine ⟨hrow, hslot, hstable, fun r j => ?_⟩
  obtain hcursor | hbyte := hhist r j
  · exact .inl hcursor
  · rw [hbyte]
    exact hvisits r j

/-- After a successful SCAN every slot, also the one just written, holds the last visit stored in it. -/
theorem State.RowCommitted.holds_every_visit {c : Byte} (h : s.RowCommitted t c)
    (hcursor : s.scanner.CursorAt (samples s.trace).length) (hvisits : s.holdsVisits) (r : Row) (j : Fin Config.slots) :
    rowByte (t.scanner.hist.get j) r = lastStored Config.slots j.val (visits r t.trace) := by
  obtain ⟨hscanner, htrace⟩ := h
  obtain ⟨hrow, hslot⟩ := hcursor
  have hvisits' : visits r t.trace = visits r s.trace ++ if r = s.scanner.row then [~~~c] else [] := by
    rw [visits, htrace, samples_append_scan, every_append, ← hrow]
    simp only [Fin.val_inj, eq_comm (a := r)]
    rfl
  rw [hscanner, Scanner.commit_hist, Scanner.fileSample_rowByte, hvisits']
  by_cases hr : r = s.scanner.row
  · subst hr
    have hlength : (visits s.scanner.row s.trace).length % Config.slots = s.scanner.slot.val := by
      rw [visits, hrow, length_every_next (by decide), hslot]
    rw [if_pos rfl, lastStored_append, hlength]
    by_cases hj : j = s.scanner.slot
    · rw [if_pos ⟨hj, rfl⟩, if_pos (congrArg Fin.val hj.symm)]
    · rw [if_neg fun h => hj h.1, if_neg fun h => hj (Fin.ext h.symm)]
      exact (hvisits _ j).resolve_left fun h => hj h.2
  · rw [if_neg fun h => hr h.2, if_neg hr, List.append_nil]
    exact (hvisits r j).resolve_left fun h => hr h.1

/-- The vote is the OR of the last N visits when every slot holds the last visit stored in it (R107, R117). -/
theorem rowByte_voter_eq_orAll {hist : Vector Snapshot Config.slots} {r : Row} {xs : List Byte}
    (h : ∀ j, rowByte (hist.get j) r = lastStored Config.slots j.val xs) :
    rowByte (voter hist) r = orAll (lastN Config.slots xs) := by
  refine BitVec.eq_of_getLsbD_eq fun m hm => ?_
  rw [Bool.eq_iff_iff, rowByte_voter_getLsbD _ _ _ hm, orAll_lastN_getLsbD (by decide)]
  simp only [h]

theorem State.debounced.of_rowCommitted {c : Byte} (hs : s.debounced) (h : s.RowCommitted t c) : t.debounced := by
  obtain ⟨hrow, hslot, -, hvisits⟩ := hs
  have hholds := h.holds_every_visit ⟨hrow, hslot⟩ hvisits
  obtain ⟨hscanner, htrace⟩ := h
  have hcursor' : t.scanner.CursorAt (samples t.trace).length := by
    rw [hscanner, htrace, samples_append_scan, List.length_append, List.length_singleton]
    exact Scanner.CursorAt.commit ⟨hrow, hslot⟩ c
  have hstable : t.scanner.stable = voter t.scanner.hist := by rw [hscanner]; rfl
  refine ⟨hcursor'.1, hcursor'.2, fun r => ?_, fun r j => .inr (hholds r j)⟩
  rw [hstable]
  exact rowByte_voter_eq_orAll (hholds r)

end

/-- Settles O49: a successful SCAN stores its sample as the next visit of its row, and `stable` becomes the OR of the
slots, which hold the last N visits of every row. -/
theorem stepKeepsDebounced : Obligations.StepKeepsDebounced := by
  intro s t hs h
  obtain ⟨s', rfl⟩ | ⟨c, hcommit⟩ | hnone := step_commits_or_not h
  · exact State.debounced_reset
  · exact hs.of_rowCommitted hcommit
  · exact hs.of_noRowCommitted hnone

end Sys2Proof.Machine
end

section
/-! SUPPORT. Proofs/ScanEvents: the events of a SCAN: the keys they name and the edges they tell of (R108, R109, R116,
R118, R119). -/

namespace Sys2Proof.Machine

/-! ### ENCODE (R160, R161) -/

/-- The fuel of 64 is enough to list every set position. -/
theorem encodeMask_eq_filter (m : Snapshot) : encodeMask m = (List.finRange 64).filter fun k => m.getLsbD k.val := by
  rw [encodeMask, encodeLoop_eq_take]
  exact List.take_of_length_le ((List.length_filter_le _ _).trans_eq (List.length_finRange ..))

theorem mem_encodeMask {m : Snapshot} {k : Key} : k ∈ encodeMask m ↔ m.getLsbD k.val = true := by
  rw [encodeMask_eq_filter, List.mem_filter]
  exact and_iff_right (List.mem_finRange k)

theorem nodup_encodeMask (m : Snapshot) : (encodeMask m).Nodup := by
  rw [encodeMask_eq_filter]
  exact (List.nodup_finRange 64).filter _

/-! ### Edges (R108) -/

section
variable {n : Nat} {sc : Scanner n}

theorem Scanner.downMask_getLsbD (k : Key) :
    sc.downMask.getLsbD k.val = (!sc.stable.getLsbD k.val && sc.candidate.getLsbD k.val) := by
  simp [downMask, Bool.and_comm]

theorem Scanner.upMask_getLsbD (k : Key) :
    sc.upMask.getLsbD k.val = (sc.stable.getLsbD k.val && !sc.candidate.getLsbD k.val) := by
  simp [upMask]

theorem Scanner.mem_encodeMask_downMask {k : Key} :
    k ∈ encodeMask sc.downMask ↔ sc.stable.getLsbD k.val = false ∧ sc.candidate.getLsbD k.val = true := by
  rw [mem_encodeMask, downMask_getLsbD, Bool.and_eq_true, Bool.not_eq_true']

theorem Scanner.mem_encodeMask_upMask {k : Key} :
    k ∈ encodeMask sc.upMask ↔ sc.stable.getLsbD k.val = true ∧ sc.candidate.getLsbD k.val = false := by
  rw [mem_encodeMask, upMask_getLsbD, Bool.and_eq_true, Bool.not_eq_true']

theorem Scanner.down_mem_events {k : Key} :
    ⟨k, .down⟩ ∈ sc.events ↔ sc.stable.getLsbD k.val = false ∧ sc.candidate.getLsbD k.val = true := by
  simp [events, mem_encodeMask_downMask]

theorem Scanner.up_mem_events {k : Key} :
    ⟨k, .up⟩ ∈ sc.events ↔ sc.stable.getLsbD k.val = true ∧ sc.candidate.getLsbD k.val = false := by
  simp [events, mem_encodeMask_upMask]

/-- An event names a key whose bit changes. -/
theorem Scanner.ne_of_mem_events {ev : KeyEvent} (h : ev ∈ sc.events) :
    sc.stable.getLsbD ev.key.val ≠ sc.candidate.getLsbD ev.key.val := by
  obtain ⟨k, transition⟩ := ev
  cases transition with
  | down =>
    obtain ⟨hold, hnew⟩ := down_mem_events.mp h
    rw [hold, hnew]
    decide
  | up =>
    obtain ⟨hold, hnew⟩ := up_mem_events.mp h
    rw [hold, hnew]
    decide

theorem Scanner.events_map_key :
    sc.events.map KeyEvent.key = encodeMask sc.downMask ++ encodeMask sc.upMask := by
  simp [events, Function.comp_def]

/-- No key is named twice: each mask lists a key once, and no bit is both newly set and newly cleared (R116). -/
theorem Scanner.nodup_events_map_key : (sc.events.map KeyEvent.key).Nodup := by
  rw [events_map_key]
  refine (nodup_encodeMask _).append (nodup_encodeMask _) fun k hdown hup => ?_
  obtain ⟨hold, -⟩ := mem_encodeMask_downMask.mp hdown
  obtain ⟨hold', -⟩ := mem_encodeMask_upMask.mp hup
  exact Bool.false_ne_true (hold.symm.trans hold')

/-- A vote that agrees with `stable` tells of no edge. -/
theorem Scanner.events_eq_nil (h : sc.stable = sc.candidate) : sc.events = [] :=
  List.eq_nil_iff_forall_not_mem.mpr fun _ hev => ne_of_mem_events hev (by rw [h])

/-- The event bytes in order: the bits newly set in the vote, ascending, then those newly cleared, ascending (R109). -/
theorem Scanner.events_map_byte :
    sc.events.map KeyEvent.byte =
      (((List.finRange 64).filter fun k : Key => !sc.stable.getLsbD k.val && sc.candidate.getLsbD k.val).map
        fun k => KeyEvent.byte ⟨k, .down⟩) ++
      (((List.finRange 64).filter fun k : Key => sc.stable.getLsbD k.val && !sc.candidate.getLsbD k.val).map
        fun k => KeyEvent.byte ⟨k, .up⟩) := by
  simp only [events, encodeMask_eq_filter, downMask_getLsbD, upMask_getLsbD, List.map_append, List.map_map,
    Function.comp_def]

/-! ### The vote with the sample filed (R106, R107) -/

/-- Outside the sampled row the vote is still `stable` where R34 (b) holds. -/
theorem Scanner.settledRows.rowByte_candidate (h : sc.settledRows) (c : Byte) {r : Row} (hr : r ≠ sc.row) :
    rowByte (sc.fileSample c).candidate r = rowByte sc.stable r :=
  (rowByte_voter_fileSample sc c r hr).trans (h r hr).symm

/-- So the events are on the sampled row (R116). -/
theorem Scanner.settledRows.event_key (h : sc.settledRows) {c : Byte} {ev : KeyEvent}
    (hev : ev ∈ (sc.fileSample c).events) : ev.key.val / 8 = sc.row.val := by
  by_contra hne
  refine ne_of_mem_events hev ?_
  rw [getLsbD_eq_rowByte, getLsbD_eq_rowByte, h.rowByte_candidate c fun hr => hne (congrArg Fin.val hr),
    fileSample_stable]

/-- A key of the sampled row is set in the vote when its column reads low or another slot holds it (R105 to R107). -/
theorem Scanner.candidate_fileSample_getLsbD (c : Byte) (j : Fin 8) {k : Key} (hk : k.val = 8 * sc.row.val + j.val) :
    (sc.fileSample c).candidate.getLsbD k.val = true ↔
      c.getLsbD j.val = false ∨ ∃ i, i ≠ sc.slot ∧ (sc.hist.get i).getLsbD k.val = true := by
  have hsample : (putRowByte (sc.hist.get sc.slot) sc.row (~~~c)).getLsbD k.val = !c.getLsbD j.val := by
    rw [putRowByte_getLsbD _ _ _ _ k.isLt, if_pos (by omega), show k.val % 8 = j.val by omega, BitVec.getLsbD_not]
    simp
  rw [candidate, voter_getLsbD]
  simp only [fileSample_hist_get]
  constructor
  · rintro ⟨i, hi⟩
    by_cases hslot : i = sc.slot
    · rw [if_pos hslot, hsample, Bool.not_eq_true'] at hi
      exact .inl hi
    · rw [if_neg hslot] at hi
      exact .inr ⟨i, hslot, hi⟩
  · rintro (hc | ⟨i, hslot, hi⟩)
    · exact ⟨sc.slot, by rw [if_pos rfl, hsample, hc]; rfl⟩
    · exact ⟨i, by rw [if_neg hslot]; exact hi⟩

/-- Such a key is clear in the vote when its column reads high and no other slot holds it (R118). -/
theorem Scanner.candidate_fileSample_getLsbD_eq_false (c : Byte) (j : Fin 8) {k : Key}
    (hk : k.val = 8 * sc.row.val + j.val) :
    (sc.fileSample c).candidate.getLsbD k.val = false ↔
      c.getLsbD j.val = true ∧ ∀ i, i ≠ sc.slot → (sc.hist.get i).getLsbD k.val = false := by
  rw [← Bool.not_eq_true, candidate_fileSample_getLsbD c j hk]
  simp

/-- Filing a sample the slot already holds changes nothing (R119). -/
theorem Scanner.fileSample_hist_of_held {c : Byte} (h : rowByte (sc.hist.get sc.slot) sc.row = ~~~c) :
    (sc.fileSample c).hist = sc.hist := by
  refine Vector.ext fun i hi => snapshot_ext fun r => ?_
  have hbyte := sc.fileSample_rowByte c ⟨i, hi⟩ r
  split at hbyte
  · rename_i hcursor
    obtain ⟨hslot, hrow⟩ := hcursor
    rw [← h, ← hslot, ← hrow] at hbyte
    exact hbyte
  · exact hbyte

/-- The vote on bytes that all slots agree in. -/
theorem rowByte_voter_of_all {hist : Vector Snapshot n} (hn : 0 < n) {r : Row} {p : Byte}
    (h : ∀ j, rowByte (hist.get j) r = p) : rowByte (voter hist) r = p := by
  refine BitVec.eq_of_getLsbD_eq fun m hm => ?_
  rw [Bool.eq_iff_iff, rowByte_voter_getLsbD _ _ _ hm]
  simp only [h]
  exact exists_const_iff.trans (and_iff_right ⟨⟨0, hn⟩⟩)

/-- Where R34 (b) holds, and every slot and `stable` hold one byte in the current row, the vote is `stable` (R119). -/
theorem Scanner.settledRows.stable_eq_voter (h : sc.settledRows) {p : Byte}
    (hslots : ∀ j, rowByte (sc.hist.get j) sc.row = p) (hstable : rowByte sc.stable sc.row = p) :
    sc.stable = voter sc.hist := by
  refine snapshot_ext fun r => ?_
  by_cases hr : r = sc.row
  · rw [hr, hstable, rowByte_voter_of_all (Nat.zero_lt_of_lt sc.slot.isLt) hslots]
  · exact h r hr

end

/-- Settles O25: the vote of R107 is the new `stable`. -/
theorem scanReportsTheEdges : Obligations.ScanReportsTheEdges := by
  intro s c ⟨hr, hw⟩
  exact ⟨_, execScan_ok s c hr hw, by rw [Scanner.events_map_byte]; rfl⟩

/-- Settles O28: a Down asks only that the vote has the key, an Up that it has not, which takes the column and every
other slot. -/
theorem pressAtOnceReleaseWhenHistoryClears : Obligations.PressAtOnceReleaseWhenHistoryClears := by
  intro s c j k ⟨hr, hw⟩ hk
  refine ⟨_, _, execScan_ok s c hr hw, rfl, fun hold hlow => ?_, ?_⟩
  · exact Scanner.down_mem_events.mpr ⟨hold, (Scanner.candidate_fileSample_getLsbD c j hk).mpr (.inl hlow)⟩
  · exact Scanner.up_mem_events.trans
      (and_congr_right fun _ => Scanner.candidate_fileSample_getLsbD_eq_false c j hk)

/-- Keys of one row are at most 8 when none stands twice (R70). -/
theorem length_le_of_row {keys : List Key} (hnodup : keys.Nodup) (r : Row) (hrow : ∀ k ∈ keys, k.val / 8 = r.val) :
    keys.length ≤ 8 := by
  have hsubset : keys ⊆ (List.finRange 64).filter fun k : Key => k.val / 8 = r.val := fun k hk =>
    List.mem_filter.mpr ⟨List.mem_finRange k, decide_eq_true (hrow k hk)⟩
  have hlength : ∀ r : Row, ((List.finRange 64).filter fun k : Key => k.val / 8 = r.val).length = 8 := by decide
  exact (hnodup.subperm hsubset).length_le.trans_eq (hlength r)

/-- Settles O29: outside the sampled row the vote is `stable`, and a row has 8 keys. -/
theorem eventsConfinedToTheRow : Obligations.EventsConfinedToTheRow := by
  intro s c hsettled ⟨hr, hw⟩
  have hrow : ∀ ev ∈ (s.scanner.fileSample c).events, ev.key.val / 8 = s.scanner.row.val := fun _ => hsettled.event_key
  refine ⟨_, _, execScan_ok s c hr hw, rfl, ?_, Scanner.nodup_events_map_key, hrow⟩
  rw [← List.length_map KeyEvent.key]
  exact length_le_of_row Scanner.nodup_events_map_key s.scanner.row (List.forall_mem_map.mpr hrow)

/-- Settles O30: filing the sample leaves the history, whose vote is `stable` already. -/
theorem repeatedSampleEmitsNothing : Obligations.RepeatedSampleEmitsNothing := by
  intro s c hsettled ⟨hr, hw⟩ hslots hstable
  have hhist : (s.scanner.fileSample c).hist = s.scanner.hist := Scanner.fileSample_hist_of_held (hslots _)
  have hvote : s.scanner.stable = (s.scanner.fileSample c).candidate := by
    rw [Scanner.candidate, hhist]
    exact hsettled.stable_eq_voter hslots hstable
  refine ⟨_, execScan_ok s c hr hw, ?_, hhist, hvote.symm⟩
  rw [Scanner.events_eq_nil hvote]
  rfl

end Sys2Proof.Machine
end

section
/-! SUPPORT. Proofs/CommandFrames: the frames of the three commands together (R20, R100, R130, R140). -/

namespace Sys2Proof.Machine

/-- Settles O17: each command's frame; INVALIDATE only drops the shadow and responds. -/
theorem commandFrames : Obligations.CommandFrames := by
  refine fun s t => ⟨execScan_frame, fun base length h => ?_, fun h => ?_⟩
  · cases h
    exact readBlock_frame base length s
  · cases h
    exact ⟨s.dropShadow_scanner, s.dropShadow_phase, s.dropShadow_keyBus, s.dropShadow_memBus, s.dropShadow_params,
      s.dropShadow_host, s.dropShadow_trace⟩

end Sys2Proof.Machine
end

section
/-! SUPPORT. Proofs/ScanOutcomes: the state after a SCAN, by what its two calls answer (R103, R111, R113, R114). -/

namespace Sys2Proof.Machine

/-- Settles O21: the SCAN that succeeds. -/
theorem scanCompletes : Obligations.ScanCompletes := fun s c ⟨hr, hw⟩ => execScan_ok s c hr hw

/-- Settles O26: the SCAN whose column read fails. -/
theorem scanReadFailure : Obligations.ScanReadFailure := execScan_readError

/-- Settles O22: a commit advances the cursor to the row whose select it wrote; without one the cursor stays. -/
theorem scanAdvancesCursor : Obligations.ScanAdvancesCursor := by
  refine ⟨fun s c ⟨hr, hw⟩ => ⟨_, execScan_ok s c hr hw, s.scanner.row_add_one_val, s.scanner.nextSlot_val, ?_⟩,
    fun s hfails => ?_⟩
  · simp [rowSelect]
  · obtain ⟨t, h⟩ := exec_next .scan s
    obtain ⟨hstable, hrow, hslot⟩ := (execScan_cursor h).resolve_left fun ⟨c, hc⟩ => hfails c hc
    exact ⟨t, h, hrow, hslot, hstable⟩

/-- Once the column read has answered, the sample is in the history whatever the write answers (R106, R114). -/
theorem execScan_hist {s : State} {c : Byte} {w : Option WriteAnswer} (h : s.scanAnswers c w) :
    ∃ t, execScan s = .next t ∧ t.scanner.hist = (s.scanner.fileSample c).hist := by
  obtain ⟨hr, hw⟩ := h
  rcases w with _ | (_ | e)
  · exact ⟨_, execScan_writeSilent s c hr hw, rfl⟩
  · exact ⟨_, execScan_ok s c hr hw, rfl⟩
  · exact ⟨_, execScan_writeError s c e hr hw, rfl⟩

/-- Settles O23: the history after the SCAN is the one with the sample filed. -/
theorem scanFilesTheSample : Obligations.ScanFilesTheSample := by
  intro s c w hanswers
  obtain ⟨t, h, hhist⟩ := execScan_hist hanswers
  refine ⟨t, h, fun j r => ?_⟩
  rw [hhist]
  exact s.scanner.fileSample_rowByte c j r

/-- Settles O24: the new `stable` is the vote. -/
theorem stableIsTheVote : Obligations.StableIsTheVote := fun s c ⟨hr, hw⟩ =>
  ⟨_, execScan_ok s c hr hw, fun k => voter_getLsbD _ k.val⟩

/-- Settles O27: the retry files its sample over the failed SCAN's, at the cursor that has not moved. -/
theorem scanWriteFailureAndRetry : Obligations.ScanWriteFailureAndRetry := by
  intro s c e ⟨hr, hw⟩
  refine ⟨_, execScan_writeError s c e hr hw, rfl, ?_⟩
  intro c' u v ⟨hr', hw'⟩ hu s0 hscanner ⟨hr0, hw0⟩ hv
  replace hu := (execScan_ok _ c' hr' hw').symm.trans hu
  replace hv := (execScan_ok s0 c' hr0 hw0).symm.trans hv
  cases hu
  cases hv
  simp [hscanner, Scanner.fileSample_fileSample]

/-- Settles O31: the key at row 0, column 2 goes down. -/
theorem scanWorkedExample : Obligations.ScanWorkedExample :=
  ⟨_, execScan_ok _ 0xFB#8 rfl rfl, by decide, by decide, by decide, by decide, rfl, by decide⟩

end Sys2Proof.Machine
end

section
/-! SUPPORT. Proofs/AccessorExtremes: the ends of READBLOCK that read no byte (R133, R134), and INVALIDATE (R140). -/

namespace Sys2Proof.Machine

/-- Settles O34: the zero length is asked for before anything else (R133). -/
theorem readblockZeroLength : Obligations.ReadblockZeroLength := fun s base =>
  congrArg Host.Outcome.next (readBlock_zero s base)

/-- A READBLOCK that ends within bounds answers Ok, a transport error or nothing (R134). -/
theorem readBlock_no_rangeError (s : State) {base : LogicalAddr} {length : BitVec 16}
    (hr : base.toNat + length.toNat ≤ 256) :
    (readBlock base length s).responses ≠ s.responses ++ [.rangeError] := by
  refine readBlock_induct (P := fun t => t.responses = s.responses)
    (Q := fun t => t.responses ≠ s.responses ++ [.rangeError]) base length s rfl ?initOk ?switchOk ?readByte ?readError
    ?readSilent ?switchError ?switchSilent ?success ?rangeError
  case initOk => exact fun _ _ h _ _ => h
  case switchOk => exact fun _ _ h _ _ => h
  case readByte => exact fun _ _ _ h _ => h
  case readError => exact fun _ _ e h _ _ => by simp [h, Response.transportError, Response.rangeError]
  case readSilent => exact fun _ _ h _ _ => by simp [h]
  case switchError => exact fun _ _ e h _ => by simp [h, Response.transportError, Response.rangeError]
  case switchSilent => exact fun _ _ h _ => by simp [h]
  case success => exact fun _ _ h _ => by simp [h, Response.ok, Response.rangeError]
  case rangeError => exact fun h => absurd hr (Nat.not_le_of_lt h)

/-- Settles O35: past the end the range check answers, and nothing else in a READBLOCK answers RangeError. -/
theorem readblockRangeCheck : Obligations.ReadblockRangeCheck := fun s base length =>
  ⟨fun h => congrArg Host.Outcome.next (readBlock_outOfRange s base length h),
    fun h => ⟨_, rfl, readBlock_no_rangeError s h⟩⟩

/-- Settles O44, by what `bank_valid` was. -/
theorem invalidateCompletes : Obligations.InvalidateCompletes := by
  intro s
  refine ⟨_, rfl, s.dropShadow_bankValid, congrArg (· ++ _) s.dropShadow_responses, ?_, fun hv => ?_⟩
  · unfold State.dropShadow
    split <;> rfl
  · rw [s.dropShadow_of_invalid hv]
    exact ⟨rfl, rfl⟩

end Sys2Proof.Machine
end

section
/-! SUPPORT. Proofs/ByteReads: one iteration of the READBLOCK loop: the bank switch when it is needed, then the read of
one byte (R137 to R139, R141, R142). -/

namespace Sys2Proof

/-- The shadow after bank `b` has been selected from the shadow `g` (R137). -/
def Params.atBank (p : Params) (g : Byte) (b : Bank) : Byte := if b = p.bankOf g then g else p.withBank g b

@[simp] theorem Params.bankOf_atBank (p : Params) (g : Byte) (b : Bank) : p.bankOf (p.atBank g b) = b := by
  unfold Params.atBank
  split
  · exact (‹b = p.bankOf g›).symm
  · exact p.bankOf_withBank g b

theorem Params.atBank_same {p : Params} {g : Byte} {b : Bank} (h : b = p.bankOf g) : p.atBank g b = g := if_pos h

theorem Params.atBank_differs {p : Params} {g : Byte} {b : Bank} (h : b ≠ p.bankOf g) :
    p.atBank g b = p.withBank g b := if_neg h

namespace Machine

/-- The calls that select bank `b` from the shadow `g`, the write answering ok (R137, R139). -/
def switchCalls (p : Params) (g : Byte) (b : Bank) : List Call :=
  if b = p.bankOf g then []
  else [.write .mem p.gconfAddr (p.withBank g b) (some .ok), .sleep p.tSwitchSettle]

/-- The calls that read the byte `v` at the logical address `a` with the shadow `g` (R137 to R139). -/
def byteCalls (p : Params) (g : Byte) (a : LogicalAddr) (v : Byte) : List Call :=
  switchCalls p g (targetBank a) ++ [.read .mem (physAddr a) (some (.byte v)), .sleep p.tEepromSettle]

theorem switchCalls_same {p : Params} {g : Byte} {b : Bank} (h : b = p.bankOf g) : switchCalls p g b = [] := if_pos h

theorem switchCalls_differs {p : Params} {g : Byte} {b : Bank} (h : b ≠ p.bankOf g) :
    switchCalls p g b = [.write .mem p.gconfAddr (p.withBank g b) (some .ok), .sleep p.tSwitchSettle] := if_neg h

variable {s t : State}

/-! ### The bank switch -/

/-- The next bank-select write for bank `b`, if one is needed, answers ok. -/
def State.SwitchOk (s : State) (b : Bank) : Prop :=
  b ≠ s.params.bankOf s.accessor.gconfShadow → s.memBus.nextWrite .mem = some .ok

/-- The state in which bank `b` is selected (R137). -/
def State.atBank (s : State) (b : Bank) : State :=
  if b = s.params.bankOf s.accessor.gconfShadow then s else s.switched b

theorem State.atBank_same {b : Bank} (h : b = s.params.bankOf s.accessor.gconfShadow) : s.atBank b = s := if_pos h

theorem State.atBank_differs {b : Bank} (h : b ≠ s.params.bankOf s.accessor.gconfShadow) :
    s.atBank b = s.switched b := if_neg h

section
variable (s : State) (b : Bank)

@[simp] theorem State.atBank_phase : (s.atBank b).phase = s.phase := by unfold State.atBank; split <;> rfl
@[simp] theorem State.atBank_responses : (s.atBank b).responses = s.responses := by unfold State.atBank; split <;> rfl
@[simp] theorem State.atBank_params : (s.atBank b).params = s.params := by unfold State.atBank; split <;> rfl
@[simp] theorem State.atBank_memBus_reads : (s.atBank b).memBus.reads = s.memBus.reads := by
  unfold State.atBank
  split
  · rfl
  · exact s.memBus.afterWrite_reads

@[simp] theorem State.atBank_accessor : (s.atBank b).accessor =
    { s.accessor with gconfShadow := s.params.atBank s.accessor.gconfShadow b } := by
  unfold State.atBank Params.atBank
  split <;> rfl

end

theorem State.atBank_trace {b : Bank} (h : s.SwitchOk b) :
    (s.atBank b).trace = s.trace ++ switchCalls s.params s.accessor.gconfShadow b := by
  by_cases hb : b = s.params.bankOf s.accessor.gconfShadow
  · rw [State.atBank_same hb, switchCalls_same hb, List.append_nil]
  · rw [State.atBank_differs hb, switchCalls_differs hb, State.switched_trace, h hb, List.append_assoc]
    rfl

theorem State.selectBank_eq_going {b : Bank} : s.selectBank b = .going () t ↔ s.SwitchOk b ∧ t = s.atBank b := by
  by_cases hb : b = s.params.bankOf s.accessor.gconfShadow
  · have hok : s.SwitchOk b := fun hne => absurd hb hne
    rw [s.selectBank_same b hb, State.atBank_same hb]
    simp [hok, eq_comm]
  · rw [State.atBank_differs hb, State.SwitchOk]
    obtain ⟨hw, h⟩ | ⟨e, hw, h⟩ | ⟨hw, h⟩ := s.selectBank_cases b hb <;> simp [h, hw, hb, eq_comm]

theorem State.selectBank_error {b : Bank} {e : TErr} (hb : b ≠ s.params.bankOf s.accessor.gconfShadow)
    (hw : s.memBus.nextWrite .mem = some (.error e)) :
    s.selectBank b = .ended ((s.switchCall b).respond (.transportError e)) := by
  rw [State.selectBank, if_neg hb]
  dsimp only
  rw [s.memWrite_error .mem _ _ e hw]
  rfl

/-! ### The byte read -/

theorem State.readWindow_error {a : LogicalAddr} {e : TErr} (hr : s.memBus.nextRead .mem = some (.error e)) :
    s.readWindow a = .ended ((s.readDone .mem (physAddr a)).respond (.transportError e)) := by
  rw [State.readWindow, s.memRead_error .mem _ e hr]
  rfl

theorem State.readWindow_eq_going {a : LogicalAddr} {v : Byte} : s.readWindow a = .going v t ↔
    s.memBus.nextRead .mem = some (.byte v) ∧ t = (s.readDone .mem (physAddr a)).sleep s.params.tEepromSettle := by
  obtain ⟨w, hr, h⟩ | ⟨e, hr, h⟩ | ⟨hr, h⟩ := s.readWindow_cases a <;> simp [h, hr, eq_comm]

/-! ### The iteration -/

/-- The state when the byte at `a` has been read, its bank selected first (R132). -/
def State.logicalRead (s : State) (a : LogicalAddr) : State :=
  ((s.atBank (targetBank a)).readDone .mem (physAddr a)).sleep s.params.tEepromSettle

theorem State.readLogical_eq_going {a : LogicalAddr} {v : Byte} : s.readLogical a = .going v t ↔
    s.SwitchOk (targetBank a) ∧ (s.atBank (targetBank a)).memBus.nextRead .mem = some (.byte v) ∧ t = s.logicalRead a := by
  constructor
  · intro h
    obtain ⟨_, u, hselect, hread⟩ := Progress.andThen_eq_going _ _ h
    obtain ⟨hok, rfl⟩ := State.selectBank_eq_going.mp hselect
    obtain ⟨hr, rfl⟩ := State.readWindow_eq_going.mp hread
    exact ⟨hok, hr, by rw [State.atBank_params]; rfl⟩
  · rintro ⟨hok, hr, rfl⟩
    rw [State.readLogical, State.selectBank_eq_going.mpr ⟨hok, rfl⟩, Progress.andThen_going]
    exact State.readWindow_eq_going.mpr ⟨hr, by rw [State.atBank_params]; rfl⟩

/-- The read fails once the bank is selected (R141). -/
theorem State.readLogical_readError {a : LogicalAddr} {e : TErr} (hok : s.SwitchOk (targetBank a))
    (hr : (s.atBank (targetBank a)).memBus.nextRead .mem = some (.error e)) : s.readLogical a =
      .ended (((s.atBank (targetBank a)).readDone .mem (physAddr a)).respond (.transportError e)) := by
  rw [State.readLogical, State.selectBank_eq_going.mpr ⟨hok, rfl⟩, Progress.andThen_going, State.readWindow_error hr]

/-- The bank-select write fails (R142). -/
theorem State.readLogical_writeError {a : LogicalAddr} {e : TErr}
    (hb : targetBank a ≠ s.params.bankOf s.accessor.gconfShadow) (hw : s.memBus.nextWrite .mem = some (.error e)) :
    s.readLogical a = .ended ((s.switchCall (targetBank a)).respond (.transportError e)) := by
  rw [State.readLogical, State.selectBank_error hb hw, Progress.andThen_ended]

section
variable (s : State) (a : LogicalAddr)

@[simp] theorem State.logicalRead_phase : (s.logicalRead a).phase = s.phase := s.atBank_phase _
@[simp] theorem State.logicalRead_responses : (s.logicalRead a).responses = s.responses := s.atBank_responses _
@[simp] theorem State.logicalRead_params : (s.logicalRead a).params = s.params := s.atBank_params _
@[simp] theorem State.logicalRead_accessor : (s.logicalRead a).accessor =
    { s.accessor with gconfShadow := s.params.atBank s.accessor.gconfShadow (targetBank a) } := s.atBank_accessor _
@[simp] theorem State.logicalRead_memBus_reads : (s.logicalRead a).memBus.reads = s.memBus.reads.tail := by
  rw [← s.atBank_memBus_reads (targetBank a)]
  exact Transport.afterRead_reads _
@[simp] theorem State.logicalRead_memBus_writes :
    (s.logicalRead a).memBus.writes = (s.atBank (targetBank a)).memBus.writes := Transport.afterRead_writes _

end

theorem State.logicalRead_trace {a : LogicalAddr} {v : Byte} (hok : s.SwitchOk (targetBank a))
    (hr : (s.atBank (targetBank a)).memBus.nextRead .mem = some (.byte v)) :
    (s.logicalRead a).trace = s.trace ++ byteCalls s.params s.accessor.gconfShadow a v := by
  rw [State.logicalRead, State.sleep_trace, State.readDone_mem_trace, hr, State.atBank_trace hok, byteCalls]
  simp only [List.append_assoc, List.cons_append, List.nil_append]

end Machine
end Sys2Proof
end

section
/-! SUPPORT. Proofs/OneByte: READBLOCK of one byte with a valid shadow (R137 to R139, R141, R142). -/

namespace Sys2Proof.Machine

variable {s : State}

/-- With a valid shadow a READBLOCK goes straight to its loop (R135). -/
theorem readBlock_valid (hv : s.accessor.bankValid = true) {base : LogicalAddr} {length : BitVec 16}
    (h0 : length ≠ 0#16) (hr : base.toNat + length.toNat ≤ 256) :
    readBlock base length s = (readAddrs (blockAddrs base length.toNat) s).finish := by
  rw [readBlock_inRange s _ _ h0 hr, State.lazyInit, hv, Progress.andThen_going]

theorem readBlock_one (hv : s.accessor.bankValid = true) (a : LogicalAddr) :
    readBlock a 1#16 s = ((s.readLogical a).andThen fun v t => .going [v] t).finish :=
  readBlock_valid hv (by decide) (Nat.add_le_of_le_sub (by decide) (Nat.le_of_lt_succ a.isLt))

theorem State.readDone_mem_eq {answer : Option ReadAnswer} (hr : s.memBus.nextRead .mem = answer) (a : RegAddr) :
    s.readDone .mem a = { s with memBus := s.memBus.afterRead, trace := s.trace ++ [.read .mem a answer] } := by
  rw [← hr]
  rfl

theorem State.switchCall_eq {answer : Option WriteAnswer} (hw : s.memBus.nextWrite .mem = answer) (b : Bank) :
    s.switchCall b = { s with
      memBus := s.memBus.afterWrite
      trace := s.trace ++
        [.write .mem s.params.gconfAddr (s.params.withBank s.accessor.gconfShadow b) answer] } := by
  rw [← hw]
  rfl

/-- Settles O37: by whether the banks agree, and by what the write and the read answer. -/
theorem readblockOneByte : Obligations.ReadblockOneByte := by
  intro s a hv
  refine ⟨fun hb => ?same, fun hb => ?differs⟩
  case same =>
    have hok : s.SwitchOk (targetBank a) := fun hne => absurd hb hne
    have hat := State.atBank_same hb
    refine ⟨fun v hr => congrArg Host.Outcome.next ?_, fun e hr => congrArg Host.Outcome.next ?_⟩
    · rw [readBlock_one hv, State.readLogical_eq_going.mpr ⟨hok, by rwa [hat], rfl⟩, State.logicalRead, hat,
        State.readDone_mem_eq hr]
      simp [State.respond, State.sleep, State.record]
    · rw [readBlock_one hv, State.readLogical_readError hok (by rwa [hat]), hat, State.readDone_mem_eq hr]
      rfl
  case differs =>
    have hat := State.atBank_differs hb
    refine ⟨fun v hw hr => congrArg Host.Outcome.next ?_, fun e hw hr => congrArg Host.Outcome.next ?_,
      fun e hw => congrArg Host.Outcome.next ?_⟩
    · rw [readBlock_one hv, State.readLogical_eq_going.mpr ⟨fun _ => hw, by rwa [hat], rfl⟩, State.logicalRead, hat,
        State.readDone_mem_eq hr, State.switched, State.switchCall_eq hw]
      simp [State.respond, State.sleep, State.record, hv]
    · rw [readBlock_one hv, State.readLogical_readError (fun _ => hw) (by rwa [hat]), hat, State.readDone_mem_eq hr,
        State.switched, State.switchCall_eq hw]
      simp [State.respond, State.sleep, State.record, hv]
    · rw [readBlock_one hv, State.readLogical_writeError hb hw, State.switchCall_eq hw]
      rfl

end Sys2Proof.Machine
end

section
/-! SUPPORT. Proofs/BlockCalls: the calls and the shadows of a READBLOCK that succeeds (R135 to R139, R143). -/

namespace Sys2Proof

/-- The shadow after the bytes at `addrs` have been read from the shadow `g` (R137). -/
def Params.shadowAfter (p : Params) (g : Byte) (addrs : List LogicalAddr) : Byte :=
  addrs.foldl (fun g a => p.atBank g (targetBank a)) g

theorem Params.shadowAfter_concat (p : Params) (g : Byte) (addrs : List LogicalAddr) (a : LogicalAddr) :
    p.shadowAfter g (addrs ++ [a]) = p.atBank (p.shadowAfter g addrs) (targetBank a) := List.foldl_append

theorem blockAddrs_succ (base : LogicalAddr) (n : Nat) :
    blockAddrs base (n + 1) = blockAddrs base n ++ [BitVec.ofNat 8 (base.toNat + n)] := by
  rw [blockAddrs_eq_map, blockAddrs_eq_map, List.range_succ, List.map_append]
  rfl

theorem blockAddrs_getElem? (base : LogicalAddr) {n i : Nat} (h : i < n) :
    (blockAddrs base n)[i]? = some (BitVec.ofNat 8 (base.toNat + i)) := by
  rw [blockAddrs_eq_map, List.getElem?_map, List.getElem?_range h]
  rfl

theorem blockAddrs_take (base : LogicalAddr) {n i : Nat} (h : i ≤ n) :
    (blockAddrs base n).take i = blockAddrs base i := by
  rw [blockAddrs_eq_map, blockAddrs_eq_map, ← List.map_take, List.take_range, Nat.min_eq_left h]

theorem physAddr_ofNat_toNat (n : Nat) : (physAddr (BitVec.ofNat 8 n)).toNat = 0x80 + n % 128 := by
  rw [physAddr_toNat, BitVec.toNat_ofNat]
  omega

theorem exists_toNat_eq_succ {length : BitVec 16} (h0 : length ≠ 0#16) : ∃ n, length.toNat = n + 1 :=
  Nat.exists_eq_succ_of_ne_zero fun h => h0 (BitVec.eq_of_toNat_eq h)

/-- The bank of an address of a block that stays in bounds (R46). -/
theorem targetBank_ofNat {n : Nat} (h : n < 256) : targetBank (BitVec.ofNat 8 n) = decide (128 ≤ n) := by
  rw [targetBank_eq, BitVec.toNat_ofNat, Nat.mod_eq_of_lt h]

namespace Machine

variable {s t : State}

/-- The calls of the loop, one segment for each byte of `vs` read at `addrs`, from the shadow `g`. -/
def segments (p : Params) : Byte → List LogicalAddr → List Byte → List (List Call)
  | g, a :: addrs, v :: vs => byteCalls p g a v :: segments p (p.atBank g (targetBank a)) addrs vs
  | _, _, _ => []

theorem segments_length (p : Params) (g : Byte) {addrs : List LogicalAddr} {vs : List Byte}
    (h : vs.length = addrs.length) : (segments p g addrs vs).length = addrs.length := by
  induction addrs generalizing g vs with
  | nil => rfl
  | cons a addrs ih =>
    obtain ⟨v, vs, rfl⟩ := List.exists_cons_of_length_eq_add_one h
    exact congrArg (· + 1) (ih _ (Nat.succ.inj h))

/-- The segment of byte `i` starts from the shadow that the bytes before it leave. -/
theorem segments_getElem? (p : Params) (g : Byte) {addrs : List LogicalAddr} {vs : List Byte} {i : Nat}
    {a : LogicalAddr} {v : Byte} (ha : addrs[i]? = some a) (hv : vs[i]? = some v) :
    (segments p g addrs vs)[i]? = some (byteCalls p (p.shadowAfter g (addrs.take i)) a v) := by
  induction addrs generalizing g vs i with
  | nil => simp at ha
  | cons b addrs ih =>
    cases vs with
    | nil => simp at hv
    | cons w vs =>
      cases i with
      | zero =>
        obtain rfl : b = a := by simpa using ha
        obtain rfl : w = v := by simpa using hv
        rfl
      | succ i => exact ih _ (by simpa using ha) (by simpa using hv)

/-- The loop of R132 where it goes on to its end: its calls, and the shadow it leaves. -/
theorem readAddrs_going {addrs : List LogicalAddr} {vs : List Byte} (h : readAddrs addrs s = .going vs t) :
    vs.length = addrs.length ∧
    t.trace = s.trace ++ (segments s.params s.accessor.gconfShadow addrs vs).flatten ∧
    t.accessor = { s.accessor with gconfShadow := s.params.shadowAfter s.accessor.gconfShadow addrs } := by
  induction addrs generalizing s vs with
  | nil =>
    cases h
    exact ⟨rfl, (List.append_nil _).symm, rfl⟩
  | cons a addrs ih =>
    obtain ⟨v, u, hbyte, hrest⟩ := Progress.andThen_eq_going _ _ h
    obtain ⟨ws, _, hloop, hend⟩ := Progress.andThen_eq_going _ _ hrest
    cases hend
    obtain ⟨hok, hr, rfl⟩ := State.readLogical_eq_going.mp hbyte
    obtain ⟨hlength, htrace, haccessor⟩ := ih hloop
    rw [State.logicalRead_trace hok hr, State.logicalRead_params, State.logicalRead_accessor] at htrace
    rw [State.logicalRead_params, State.logicalRead_accessor] at haccessor
    exact ⟨congrArg (· + 1) hlength, htrace.trans (List.append_assoc ..), haccessor⟩

/-! ### Initialisation -/

/-- The calls of the lazy initialisation, its read answering `g` (R135). -/
def State.initCalls (s : State) (g : Byte) : List Call :=
  if s.accessor.bankValid then [] else [.read .mem s.params.gconfAddr (some (.byte g))]

theorem State.startShadow_unique {g g' : Byte} (h : s.startShadow g) (h' : s.startShadow g') : g = g' := by
  obtain ⟨hv, rfl⟩ | ⟨hv, hr⟩ := h <;> obtain ⟨hv', rfl⟩ | ⟨hv', hr'⟩ := h'
  · rfl
  · exact absurd (hv.symm.trans hv') (by decide)
  · exact absurd (hv.symm.trans hv') (by decide)
  · simpa [hr] using hr'

/-- The lazy initialisation where the command goes on: the shadow is valid, and it is the starting one (R135). -/
theorem State.lazyInit_going (h : s.lazyInit = .going () t) : ∃ g, s.startShadow g ∧
    t.params = s.params ∧ t.accessor = { gconfShadow := g, bankValid := true } ∧ t.trace = s.trace ++ s.initCalls g := by
  obtain ⟨hv, h1⟩ | ⟨hv, g, hr, h1⟩ | ⟨-, e, -, h1⟩ | ⟨-, -, h1⟩ := s.lazyInit_cases <;> cases h1.symm.trans h
  · exact ⟨_, .inl ⟨hv, rfl⟩, rfl, by rw [← hv], by simp [State.initCalls, hv]⟩
  · exact ⟨g, .inr ⟨hv, hr⟩, rfl, rfl, by simp [State.initCalls, hv, hr]⟩

/-- A successful READBLOCK: its starting shadow, its calls, and the accessor it leaves. -/
theorem readBlock_ok_calls {base : LogicalAddr} {length : BitVec 16} {vs : List Byte} (h0 : length ≠ 0#16)
    (hr : base.toNat + length.toNat ≤ 256) (hok : (readBlock base length s).responses = s.responses ++ [.ok vs]) :
    ∃ g, s.startShadow g ∧ vs.length = length.toNat ∧
      (readBlock base length s).trace =
        s.trace ++ s.initCalls g ++ (segments s.params g (blockAddrs base length.toNat) vs).flatten ∧
      (readBlock base length s).accessor =
        { gconfShadow := s.params.shadowAfter g (blockAddrs base length.toNat), bankValid := true } := by
  obtain ⟨s1, s2, hinit, hloop, hend⟩ := readBlock_ok h0 hr hok
  obtain ⟨g, hstart, hparams, haccessor, htrace⟩ := State.lazyInit_going hinit
  obtain ⟨hlength, htrace', haccessor'⟩ := readAddrs_going hloop
  rw [hparams, haccessor] at htrace' haccessor'
  rw [htrace] at htrace'
  rw [hend]
  exact ⟨g, hstart, hlength.trans (blockAddrs_length ..), htrace', haccessor'⟩

/-- Settles O39: the last byte's bank switch, or its not being needed, leaves the shadow at its bank. -/
theorem readblockLeavesLastBank : Obligations.ReadblockLeavesLastBank := by
  intro s t base length vs h0 hr h hok
  cases h
  obtain ⟨g, -, -, -, haccessor⟩ := readBlock_ok_calls h0 hr hok
  obtain ⟨-, -, hparams, -⟩ := readBlock_frame base length s
  obtain ⟨n, hn⟩ := exists_toNat_eq_succ h0
  rw [haccessor, hparams]
  refine ⟨rfl, ?_⟩
  rw [hn, blockAddrs_succ, Params.shadowAfter_concat, Params.bankOf_atBank, targetBank_ofNat (by omega)]
  rfl

/-- Settles O40: the segments are `segments`, and the shadow before byte `i` is the one after the first `i` addresses. -/
theorem readblockReadsInOrder : Obligations.ReadblockReadsInOrder := by
  intro s t base length vs h0 hr h hok
  cases h
  obtain ⟨g, hstart, hlength, htrace, haccessor⟩ := readBlock_ok_calls h0 hr hok
  refine ⟨hlength, s.initCalls g, segments s.params g (blockAddrs base length.toNat) vs,
    fun i => s.params.shadowAfter g (blockAddrs base i), htrace, ?_, hstart, congrArg _ haccessor, rfl,
    fun i hi => ?_⟩
  · rw [segments_length _ _ (hlength.trans (blockAddrs_length ..).symm), blockAddrs_length]
  · have hbank : targetBank (BitVec.ofNat 8 (base.toNat + i)) = decide (128 ≤ base.toNat + i) :=
      targetBank_ofNat (by omega)
    have hv := List.getElem?_eq_getElem (hlength.symm ▸ hi)
    have hsegment := segments_getElem? s.params g (blockAddrs_getElem? base hi) hv
    rw [blockAddrs_take base hi.le, byteCalls, hbank] at hsegment
    refine ⟨_, _, _, physAddr_ofNat_toNat (base.toNat + i), hv, ⟨fun hb => ?_, fun hb => ?_⟩, hsegment⟩
    · refine ⟨switchCalls_same hb, ?_⟩
      dsimp only
      rw [blockAddrs_succ, Params.shadowAfter_concat, hbank, Params.atBank_same hb]
    · refine ⟨switchCalls_differs hb, ?_⟩
      dsimp only
      rw [blockAddrs_succ, Params.shadowAfter_concat, hbank, Params.atBank_differs hb]

end Machine
end Sys2Proof
end

section
/-! SUPPORT. Proofs/BlockCounts: how many calls of each kind a successful READBLOCK makes (R144). -/

namespace Sys2Proof

/-- How often the bank is switched when the bytes at the addresses are read, bank `b` being selected before (R137). -/
def bankSwitches : Bank → List LogicalAddr → Nat
  | _, [] => 0
  | b, a :: addrs => (if targetBank a = b then 0 else 1) + bankSwitches (targetBank a) addrs

/-- In a block of ascending addresses the bank is switched before the first byte when that is in the other bank, and once
where the block crosses from bank 0 to bank 1. -/
theorem bankSwitches_eq_first_add_crossing (b : Bank) (base : LogicalAddr) (n : Nat)
    (h : base.toNat + (n + 1) ≤ 256) :
    bankSwitches b (blockAddrs base (n + 1)) =
      (if targetBank base = b then 0 else 1) + if base.toNat < 128 ∧ 128 ≤ base.toNat + n then 1 else 0 := by
  rw [blockAddrs, bankSwitches]
  congr 1
  induction n generalizing base with
  | zero =>
    rw [if_neg (by omega)]
    rfl
  | succ n ih =>
    have hnext : (base + 1#8).toNat = base.toNat + 1 := by
      rw [BitVec.toNat_add, BitVec.toNat_ofNat]
      omega
    rw [blockAddrs, bankSwitches, ih (base + 1#8) (by omega), targetBank_eq, targetBank_eq, hnext]
    simp only [decide_eq_decide]
    split_ifs <;> omega

/-- The switches of R144, by the starting bank and the range. -/
theorem bankSwitches_blockAddrs (b : Bank) (base : LogicalAddr) (n : Nat) (h : base.toNat + (n + 1) ≤ 256) :
    bankSwitches b (blockAddrs base (n + 1)) =
      if base.toNat < 128 ∧ 128 ≤ base.toNat + n then (if b = false then 1 else 2)
      else if b = decide (128 ≤ base.toNat) then 0 else 1 := by
  rw [bankSwitches_eq_first_add_crossing b base n h, targetBank_eq]
  by_cases hcross : base.toNat < 128 ∧ 128 ≤ base.toNat + n
  · have hlow : decide (128 ≤ base.toNat) = false := decide_eq_false (by omega)
    rw [if_pos hcross, if_pos hcross, hlow]
    cases b <;> rfl
  · rw [if_neg hcross, if_neg hcross, Nat.add_zero]
    simp only [eq_comm]

namespace Machine

variable {s : State} {p : Params}

/-- The calls read `n` bytes of the window and switch the bank `w` times, each with its delay; the configuration register
is not read. -/
def CallCounts (p : Params) (n w : Nat) (calls : List Call) : Prop :=
  calls.countP Call.readsWindow = n ∧ calls.countP (Call.readsGconf p) = 0 ∧
    calls.countP Call.isSleep = n + w ∧ calls.countP (Call.writesGconf p) = w

theorem CallCounts.append {n w m v : Nat} {x y : List Call} (hx : CallCounts p n w x) (hy : CallCounts p m v y) :
    CallCounts p (n + m) (w + v) (x ++ y) := by
  obtain ⟨hwindow, hgconf, hsleep, hwrites⟩ := hx
  obtain ⟨hwindow', hgconf', hsleep', hwrites'⟩ := hy
  simp only [CallCounts, List.countP_append]
  omega

theorem callCounts_switchCalls (g : Byte) (b : Bank) :
    CallCounts p 0 (if b = p.bankOf g then 0 else 1) (switchCalls p g b) := by
  unfold switchCalls
  split
  · exact ⟨rfl, rfl, rfl, rfl⟩
  · simp [CallCounts, Call.readsWindow, Call.readsGconf, Call.isSleep, Call.writesGconf]

theorem callCounts_readWindow (a : LogicalAddr) (v : Byte) (duration : Nat) :
    CallCounts p 1 0 [.read .mem (physAddr a) (some (.byte v)), .sleep duration] := by
  simp [CallCounts, Call.readsWindow, Call.readsGconf, Call.isSleep, Call.writesGconf, le_physAddr a,
    p.physAddr_ne_gconfAddr a]

theorem callCounts_segments (g : Byte) {addrs : List LogicalAddr} {vs : List Byte} (h : vs.length = addrs.length) :
    CallCounts p addrs.length (bankSwitches (p.bankOf g) addrs) (segments p g addrs vs).flatten := by
  induction addrs generalizing g vs with
  | nil => exact ⟨rfl, rfl, rfl, rfl⟩
  | cons a addrs ih =>
    obtain ⟨v, vs, rfl⟩ := List.exists_cons_of_length_eq_add_one h
    have hbyte := (callCounts_switchCalls g (targetBank a)).append (callCounts_readWindow (p := p) a v p.tEepromSettle)
    have hrest := ih (p.atBank g (targetBank a)) (Nat.succ.inj h)
    rw [Params.bankOf_atBank] at hrest
    have hall := hbyte.append hrest
    rwa [Nat.zero_add, Nat.add_zero, Nat.add_comm 1] at hall

/-- The initialisation reads GCONF_ADDR, which is no window address, once if at all (R135). -/
theorem initCalls_counts (s : State) (g : Byte) :
    (s.initCalls g).countP Call.readsWindow = 0 ∧
    (s.initCalls g).countP (Call.readsGconf s.params) = (if s.accessor.bankValid then 0 else 1) ∧
    (s.initCalls g).countP Call.isSleep = 0 ∧ (s.initCalls g).countP (Call.writesGconf s.params) = 0 := by
  have hlow := s.params.gconfAddr_lt
  unfold State.initCalls
  cases s.accessor.bankValid <;> simp [Call.readsWindow, Call.readsGconf, Call.isSleep, Call.writesGconf, hlow]

/-- Settles O41: the counts of the initialisation and of the segments, and the bank switches of an ascending block. -/
theorem readblockCounts : Obligations.ReadblockCounts := by
  intro s t base length vs calls g h0 hr h hok htrace hstart
  cases h
  obtain ⟨g', hstart', hlength, htrace', -⟩ := readBlock_ok_calls h0 hr hok
  obtain rfl := State.startShadow_unique hstart hstart'
  rw [htrace, List.append_assoc] at htrace'
  obtain rfl := List.append_cancel_left htrace'
  obtain ⟨n, hn⟩ := exists_toNat_eq_succ h0
  obtain ⟨hwindow, hgconf, hsleep, hwrites⟩ := initCalls_counts s g
  obtain ⟨hwindow', hgconf', hsleep', hwrites'⟩ :=
    callCounts_segments (p := s.params) g (hlength.trans (blockAddrs_length base _).symm)
  rw [blockAddrs_length] at hwindow' hsleep'
  have hswitches := bankSwitches_blockAddrs (s.params.bankOf g) base n (hn ▸ hr)
  rw [← hn] at hswitches
  simp only [List.countP_append, hwindow, hgconf, hsleep, hwrites, hwindow', hgconf', hsleep', hwrites', Nat.zero_add,
    Nat.add_zero, true_and]
  rw [hswitches, hn]
  rfl

end Machine
end Sys2Proof
end

section
/-! SUPPORT. Proofs/BlockCompletes: a READBLOCK whose calls are listed as answered gets to its end (R130 to R132, R143). -/

namespace Sys2Proof

theorem bankSwitches_blockAddrs_le_two (b : Bank) (base : LogicalAddr) (n : Nat) (h : base.toNat + n ≤ 256) :
    bankSwitches b (blockAddrs base n) ≤ 2 := by
  cases n with
  | zero => exact Nat.zero_le _
  | succ n =>
    rw [bankSwitches_eq_first_add_crossing b base n h]
    split_ifs <;> omega

namespace Machine

variable {s : State}

/-- Listed as ok: as many writes as it takes to select bank `b`, and `k` more. -/
theorem State.switchOk_of_listed {b : Bank} {k : Nat} {writes : List (Option WriteAnswer)}
    (h : s.memBus.writes =
      List.replicate ((if b = s.params.bankOf s.accessor.gconfShadow then 0 else 1) + k) (some .ok) ++ writes) :
    s.SwitchOk b ∧ (s.atBank b).memBus.writes = List.replicate k (some .ok) ++ writes := by
  by_cases hb : b = s.params.bankOf s.accessor.gconfShadow
  · rw [if_pos hb, Nat.zero_add] at h
    exact ⟨fun hne => absurd hb hne, by rw [State.atBank_same hb, h]⟩
  · rw [if_neg hb, Nat.add_comm, List.replicate_succ, List.cons_append] at h
    refine ⟨fun _ => Transport.nextWrite_listed _ _ _ _ h, ?_⟩
    rw [State.atBank_differs hb, State.switched_memBus, Transport.afterWrite_writes, h]
    rfl

/-- The loop gets to its end when the bytes and the ok of each bank switch are listed. -/
theorem readAddrs_listed {addrs : List LogicalAddr} {vs : List Byte} {reads : List (Option ReadAnswer)}
    {writes : List (Option WriteAnswer)} (hlength : vs.length = addrs.length)
    (hreads : s.memBus.reads = vs.map (fun v => some (.byte v)) ++ reads)
    (hwrites : s.memBus.writes =
      List.replicate (bankSwitches (s.params.bankOf s.accessor.gconfShadow) addrs) (some .ok) ++ writes) :
    ∃ t, readAddrs addrs s = .going vs t ∧ t.phase = s.phase ∧ t.responses = s.responses ∧ t.memBus.reads = reads := by
  induction addrs generalizing s vs with
  | nil =>
    obtain rfl := List.length_eq_zero_iff.mp hlength
    exact ⟨s, rfl, rfl, rfl, hreads⟩
  | cons a addrs ih =>
    obtain ⟨v, vs, rfl⟩ := List.exists_cons_of_length_eq_add_one hlength
    obtain ⟨hok, hwrites'⟩ := State.switchOk_of_listed hwrites
    have hr : (s.atBank (targetBank a)).memBus.nextRead .mem = some (.byte v) :=
      Transport.nextRead_listed _ _ _ _ ((s.atBank_memBus_reads _).trans hreads)
    obtain ⟨t, hloop, hphase, hresponses, hrest⟩ := ih (s := s.logicalRead a) (Nat.succ.inj hlength)
      (by rw [State.logicalRead_memBus_reads, hreads]; rfl)
      (by rw [State.logicalRead_memBus_writes, hwrites', State.logicalRead_params, State.logicalRead_accessor,
        Params.bankOf_atBank])
    rw [State.logicalRead_phase] at hphase
    rw [State.logicalRead_responses] at hresponses
    refine ⟨t, ?_, hphase, hresponses, hrest⟩
    rw [readAddrs, State.readLogical_eq_going.mpr ⟨hok, hr, rfl⟩, Progress.andThen_going, hloop, Progress.andThen_going]

/-- The initialisation gets to its end when its read, if it makes one, is listed as answering `g`. -/
theorem State.lazyInit_listed {g : Byte} {reads : List (Option ReadAnswer)}
    (h : s.memBus.reads = (if s.accessor.bankValid then [] else [some (.byte g)]) ++ reads) :
    ∃ t, s.lazyInit = .going () t ∧ t.phase = s.phase ∧ t.responses = s.responses ∧ t.memBus.reads = reads ∧
      t.memBus.writes = s.memBus.writes := by
  rcases hv : s.accessor.bankValid with _ | _
  · rw [hv] at h
    refine ⟨s.initialised g, s.lazyInit_byte hv (Transport.nextRead_listed _ _ _ _ h), rfl, rfl, ?_,
      s.memBus.afterRead_writes⟩
    rw [State.initialised_memBus, Transport.afterRead_reads, h]
    rfl
  · rw [hv] at h
    exact ⟨s, by rw [State.lazyInit, hv], rfl, rfl, h, rfl⟩

/-- Settles O38: two listed oks are enough for the at most two bank switches; the shadow is that of every success. -/
theorem readblockCompletes : Obligations.ReadblockCompletes := by
  intro s base length g vs reads writes h0 hr hlength hreads hwrites
  rw [List.append_assoc] at hreads
  obtain ⟨s1, hinit, hphase, hresponses, hreads1, hwrites1⟩ := State.lazyInit_listed hreads
  rw [hwrites] at hwrites1
  obtain ⟨k, hk⟩ := Nat.exists_eq_add_of_le
    (bankSwitches_blockAddrs_le_two (s1.params.bankOf s1.accessor.gconfShadow) base length.toNat hr)
  have hsplit : some WriteAnswer.ok :: some .ok :: writes =
      List.replicate (bankSwitches (s1.params.bankOf s1.accessor.gconfShadow) (blockAddrs base length.toNat)) (some .ok) ++
        (List.replicate k (some .ok) ++ writes) := by
    rw [← List.append_assoc, List.replicate_append_replicate, ← hk]
    rfl
  obtain ⟨t, hloop, hphase', hresponses', hreads'⟩ :=
    readAddrs_listed (hlength.trans (blockAddrs_length base _).symm) hreads1 (hwrites1.trans hsplit)
  have h : exec (.readblock base length) s = .next (t.respond (.ok vs)) := congrArg Host.Outcome.next (by
    rw [readBlock_inRange s _ _ h0 hr, hinit, Progress.andThen_going, hloop, Progress.finish_going])
  have hok : (t.respond (.ok vs)).responses = s.responses ++ [.ok vs] :=
    congrArg (· ++ _) (hresponses'.trans hresponses)
  exact ⟨_, h, hok, hphase'.trans hphase, hreads', readblockLeavesLastBank s _ base length vs h0 hr h hok⟩

end Machine
end Sys2Proof
end

section
/-! SUPPORT. Proofs/ReadblockExample: the worked READBLOCK of R147. -/

namespace Sys2Proof.Machine

/-- Settles O43: address 127 is in the bank of the shadow 0x21, and address 128 takes the one switch. -/
theorem readblockWorkedExample : Obligations.ReadblockWorkedExample := by
  intro s hbit hpolarity haccessor hbus
  have hbank : s.params.bankOf 0x21#8 = false := by
    rw [Params.bankOf, Params.bitVal_direct hpolarity, hbit]
    rfl
  have hswitched : s.params.withBank 0x21#8 true = 0x61#8 := by
    rw [Params.withBank, Params.bitVal_direct hpolarity, hbit]
    rfl
  have hshadow : s.accessor.gconfShadow = 0x21#8 := congrArg Accessor.gconfShadow haccessor
  have hlow : targetBank 127#8 = s.params.bankOf 0x21#8 := hbank.symm
  have hhigh : targetBank 128#8 ≠ s.params.bankOf 0x21#8 := by
    rw [hbank]
    decide
  obtain ⟨t, hloop, -, hresponses, -⟩ := readAddrs_listed (s := s) (addrs := [127#8, 128#8])
    (vs := [0xAA#8, 0xBB#8]) (reads := []) (writes := []) rfl (congrArg Transport.reads hbus)
    (by rw [hbus, hshadow, hbank]; rfl)
  obtain ⟨-, htrace, haccessor'⟩ := readAddrs_going hloop
  have h : readBlock 127#8 2#16 s = t.respond (.ok [0xAA#8, 0xBB#8]) := by
    rw [readBlock_valid (congrArg Accessor.bankValid haccessor) (by decide) (by decide)]
    exact congrArg Progress.finish hloop
  refine ⟨_, congrArg Host.Outcome.next h, htrace.trans ?_, ?_, congrArg (· ++ _) hresponses⟩
  · simp only [segments, byteCalls, hshadow, Params.atBank_same hlow, switchCalls_same hlow, switchCalls_differs hhigh]
    rw [← hswitched]
    rfl
  · rw [State.respond_accessor, haccessor', hshadow, Params.shadowAfter, List.foldl_cons, Params.atBank_same hlow,
      List.foldl_cons, Params.atBank_differs hhigh]
    exact hswitched

end Sys2Proof.Machine
end

section
/-! SUPPORT. Proofs/NoReread: after its initialising read a READBLOCK goes on with a call that is no delay, and reads the
configuration register no more (R135, R139). -/

namespace Sys2Proof.Machine

/-- Since `s` calls were made, the first of them no delay, none of them a read of GCONF_ADDR. -/
def State.WentOn (s t : State) : Prop :=
  ∃ (next : Call) (more : List Call), t.trace = s.trace ++ next :: more ∧ next.isSleep = false ∧
    ∀ c ∈ next :: more, c.readsGconf s.params = false

/-- The parameters are those of `s`; since `s` the calls went on, or none was made and there is an address left to read. -/
def State.AtOrOn (s : State) (todo : List LogicalAddr) (t : State) : Prop :=
  t.params = s.params ∧ (t.trace = s.trace ∧ todo ≠ [] ∨ s.WentOn t)

section
variable {s t u : State} {todo : List LogicalAddr} (h : s.AtOrOn todo t)
include h

/-- One more call that is no delay and no read of GCONF_ADDR, and calls after it that are no such reads. -/
theorem State.AtOrOn.wentOn {c : Call} {calls : List Call} (htrace : u.trace = t.trace ++ c :: calls)
    (hsleep : c.isSleep = false) (hreads : ∀ c' ∈ c :: calls, c'.readsGconf t.params = false) : s.WentOn u := by
  obtain ⟨hparams, ⟨hat, -⟩ | ⟨next, more, htrace', hsleep', hreads'⟩⟩ := h <;> rw [hparams] at hreads
  · exact ⟨c, calls, by rw [htrace, hat], hsleep, hreads⟩
  · exact ⟨next, more ++ c :: calls, by rw [htrace, htrace', List.append_assoc, List.cons_append], hsleep',
      List.forall_mem_append.mpr ⟨hreads', hreads⟩⟩

theorem State.AtOrOn.switchCall (b : Bank) : s.WentOn (t.switchCall b) :=
  h.wentOn (t.switchCall_trace b) rfl (by simp [Call.readsGconf])

theorem State.AtOrOn.switched (b : Bank) : s.WentOn (t.switched b) :=
  h.wentOn ((t.switched_trace b).trans (List.append_assoc ..)) rfl (by simp [Call.readsGconf])

theorem State.AtOrOn.readDone (a : LogicalAddr) : s.WentOn (t.readDone .mem (physAddr a)) :=
  h.wentOn rfl rfl (by simp [Call.readsGconf, t.params.physAddr_ne_gconfAddr a])

theorem State.AtOrOn.readByte (a : LogicalAddr) (duration : Nat) :
    s.WentOn ((t.readDone .mem (physAddr a)).sleep duration) :=
  h.wentOn (List.append_assoc ..) rfl (by simp [Call.readsGconf, t.params.physAddr_ne_gconfAddr a])

end

/-- A loop over at least one address makes such calls, whatever they answer. -/
theorem readAddrs_wentOn (s : State) {addrs : List LogicalAddr} (hne : addrs ≠ []) :
    s.WentOn (readAddrs addrs s).finish := by
  have hmeets := readAddrs_meets (P := fun _ => s.AtOrOn) (Q := s.WentOn) ?switchOk ?switchError ?switchSilent ?readByte
    ?readError ?readSilent addrs [] s ⟨rfl, .inl ⟨rfl, hne⟩⟩
  case switchOk => exact fun _ a _ _ h _ _ => ⟨h.1, .inr (h.switched (targetBank a))⟩
  case switchError => exact fun _ a _ _ _ h _ _ => h.switchCall (targetBank a)
  case switchSilent => exact fun _ a _ _ h _ _ => h.switchCall (targetBank a)
  case readByte => exact fun _ a _ t _ h _ _ => ⟨h.1, .inr (h.readByte a t.params.tEepromSettle)⟩
  case readError => exact fun _ a _ _ _ h _ _ => h.readDone a
  case readSilent => exact fun _ a _ _ h _ _ => h.readDone a
  exact hmeets.finish fun _ _ ⟨_, h⟩ => h.resolve_left fun ⟨_, hleft⟩ => hleft rfl

/-- Settles O36: the initialising read, and the loop after it, which keeps `bank_valid` and reads GCONF_ADDR no more. -/
theorem readblockInitialisesLazily : Obligations.ReadblockInitialisesLazily := by
  intro s base length hv h0 hr
  refine ⟨fun e ha => congrArg Host.Outcome.next ?_, fun g ha => ?_⟩
  · rw [readBlock_initError hv h0 hr ha, State.readDone_mem_eq ha]
    rfl
  · obtain ⟨n, hn⟩ := exists_toNat_eq_succ h0
    have hne : blockAddrs base length.toNat ≠ [] := by
      rw [hn]
      exact List.cons_ne_nil _ _
    obtain ⟨next, more, htrace, hsleep, hreads⟩ := readAddrs_wentOn (s.initialised g) hne
    rw [← readBlock_initByte hv h0 hr ha, State.initialised_trace, ha] at htrace
    have hvalid : (readBlock base length s).accessor.bankValid = true := by
      rw [readBlock_initialised hv h0 hr ha]
      exact readBlock_keeps_valid base length rfl
    exact ⟨_, next, more, rfl, hvalid, htrace.trans (List.append_assoc ..), hsleep, hreads⟩

end Sys2Proof.Machine
end

section
/-! SUPPORT. Proofs/EncodeOrder: ENCODE lists the set positions in ascending order (R160). -/

namespace Sys2Proof.Machine

/-- The positions are filtered out of 0..63, so their order is kept. -/
theorem pairwise_lt_encodeMask (m : Snapshot) : (encodeMask m).Pairwise (· < ·) := by
  rw [encodeMask_eq_filter]
  exact (List.pairwise_lt_finRange 64).filter _

/-- Settles O33: the loop's list is the filter of 0..63, which gives its order and its members. -/
theorem encodeListsSetBits : Obligations.EncodeListsSetBits := fun m =>
  ⟨encodeMask_eq_filter m, pairwise_lt_encodeMask m, fun _ => mem_encodeMask⟩

end Sys2Proof.Machine
end

section
/-! SUPPORT. Proofs/FirstFailure: a command that sends a response ended at its first failing call, with that call's
error (R171, R175, R176, R141). -/

namespace Sys2Proof.Machine

/-- From `s` to `t` no call has failed and no response has been sent, whatever the phase. -/
def State.Unfailed (s t : State) : Prop :=
  t.responses = s.responses ∧ ∃ calls, t.trace = s.trace ++ calls ∧ ∀ c ∈ calls, c.failed = false

/-- What a command run from `s` to `t` tells by a response `r`, if it sent one (R175, R176). -/
def State.EndsAtFirstFailure (s t : State) : Prop :=
  ∀ r, t.responses = s.responses ++ [r] →
    (r.status = 0x00#8 ∧ ∃ calls, t.trace = s.trace ++ calls ∧ ∀ c ∈ calls, c.failed = false) ∨
    (r = .rangeError ∧ t = s.respond r) ∨
    ∃ e calls last, r = .transportError e ∧ t.trace = s.trace ++ calls ++ [last] ∧ last.error? = some e ∧
      ∀ c ∈ calls, c.failed = false

section
variable {s t u : State}

theorem State.Unfailed.refl (s : State) : s.Unfailed s :=
  ⟨rfl, [], (List.append_nil _).symm, List.forall_mem_nil _⟩

theorem State.Unfailed.call {c : Call} (h : s.Unfailed t) (hresponses : u.responses = t.responses)
    (htrace : u.trace = t.trace ++ [c]) (hc : c.failed = false) : s.Unfailed u := by
  obtain ⟨hresponses', calls, htrace', hcalls⟩ := h
  exact ⟨hresponses.trans hresponses', calls ++ [c], by rw [htrace, htrace', List.append_assoc],
    List.forall_mem_append.mpr ⟨hcalls, List.forall_mem_singleton.mpr hc⟩⟩

/-- The response sent after none was is the one response added. -/
theorem State.eq_of_respond {r r' : Response} (ht : t.responses = s.responses)
    (hr : (t.respond r').responses = s.responses ++ [r]) : r = r' := by
  simpa [ht, eq_comm] using hr

/-! ### The ends of a command -/

/-- It answers Ok. -/
theorem State.Unfailed.answerOk (h : s.Unfailed t) (vs : List Byte) : s.EndsAtFirstFailure (t.respond (.ok vs)) := by
  obtain ⟨hresponses, hcalls⟩ := h
  intro r hr
  obtain rfl := State.eq_of_respond hresponses hr
  exact .inl ⟨rfl, hcalls⟩

/-- One more call answers an error, and the response copies it. -/
theorem State.Unfailed.failedCall {c : Call} {e : TErr} (h : s.Unfailed t)
    (hresponses : u.responses = t.responses) (htrace : u.trace = t.trace ++ [c]) (hc : c.error? = some e) :
    s.EndsAtFirstFailure (u.respond (.transportError e)) := by
  obtain ⟨hresponses', calls, htrace', hcalls⟩ := h
  intro r hr
  obtain rfl := State.eq_of_respond (hresponses.trans hresponses') hr
  exact .inr (.inr ⟨e, calls, c, rfl, by rw [State.respond_trace, htrace, htrace'], hc, hcalls⟩)

/-- The range check refuses it before anything else is done (R134). -/
theorem State.endsAtFirstFailure_rangeError (s : State) : s.EndsAtFirstFailure (s.respond .rangeError) := by
  intro r hr
  obtain rfl := State.eq_of_respond rfl hr
  exact .inr (.inl ⟨rfl, rfl⟩)

/-- It sends nothing (R41). -/
theorem State.endsAtFirstFailure_of_silent (h : t.responses = s.responses) : s.EndsAtFirstFailure t :=
  fun r hr => by simp [h] at hr

end

/-! ### The transport calls -/

section
variable {s t : State} {d : Device}

/-- A call on either device shows in the trace with its answer (R59). -/
theorem State.readDone_trace (s : State) (d : Device) (a : RegAddr) :
    (s.readDone d a).trace = s.trace ++ [.read d a ((s.bus d).nextRead d)] := by
  cases d <;> rfl

theorem State.writeDone_trace (s : State) (d : Device) (a : RegAddr) (v : Byte) :
    (s.writeDone d a v).trace = s.trace ++ [.write d a v ((s.bus d).nextWrite d)] := by
  cases d <;> rfl

theorem State.readDone_responses (s : State) (d : Device) (a : RegAddr) :
    (s.readDone d a).responses = s.responses := by
  cases d <;> rfl

theorem State.writeDone_responses (s : State) (d : Device) (a : RegAddr) (v : Byte) :
    (s.writeDone d a v).responses = s.responses := by
  cases d <;> rfl

theorem State.Unfailed.readByte {v : Byte} (h : s.Unfailed t) (hr : (t.bus d).nextRead d = some (.byte v))
    (a : RegAddr) : s.Unfailed (t.readDone d a) :=
  h.call (t.readDone_responses d a) (t.readDone_trace d a) (by simp [hr, Call.failed])

theorem State.Unfailed.writeOk (h : s.Unfailed t) (hw : (t.bus d).nextWrite d = some .ok) (a : RegAddr) (v : Byte) :
    s.Unfailed (t.writeDone d a v) :=
  h.call (t.writeDone_responses d a v) (t.writeDone_trace d a v) (by simp [hw, Call.failed])

theorem State.Unfailed.sleep (h : s.Unfailed t) (duration : Nat) : s.Unfailed (t.sleep duration) :=
  h.call rfl rfl rfl

theorem State.Unfailed.readError {e : TErr} (h : s.Unfailed t) (hr : (t.bus d).nextRead d = some (.error e))
    (a : RegAddr) : s.EndsAtFirstFailure ((t.readDone d a).respond (.transportError e)) :=
  h.failedCall (t.readDone_responses d a) (t.readDone_trace d a) (by simp [hr, Call.error?])

theorem State.Unfailed.writeError {e : TErr} (h : s.Unfailed t) (hw : (t.bus d).nextWrite d = some (.error e))
    (a : RegAddr) (v : Byte) : s.EndsAtFirstFailure ((t.writeDone d a v).respond (.transportError e)) :=
  h.failedCall (t.writeDone_responses d a v) (t.writeDone_trace d a v) (by simp [hw, Call.error?])

theorem State.Unfailed.readSilent (h : s.Unfailed t) (d : Device) (a : RegAddr) :
    s.EndsAtFirstFailure (t.readDone d a).hang :=
  State.endsAtFirstFailure_of_silent ((t.readDone_responses d a).trans h.1)

theorem State.Unfailed.writeSilent (h : s.Unfailed t) (d : Device) (a : RegAddr) (v : Byte) :
    s.EndsAtFirstFailure (t.writeDone d a v).hang :=
  State.endsAtFirstFailure_of_silent ((t.writeDone_responses d a v).trans h.1)

theorem State.Unfailed.memRead (h : s.Unfailed t) (d : Device) (a : RegAddr) :
    (t.memRead d a).Meets (fun _ u => s.Unfailed u) s.EndsAtFirstFailure := by
  rcases t.memRead_cases d a with ⟨v, hr, heq⟩ | ⟨e, hr, heq⟩ | ⟨-, heq⟩ <;> rw [heq]
  · exact h.readByte hr a
  · exact h.readError hr a
  · exact h.readSilent d a

theorem State.Unfailed.memWrite (h : s.Unfailed t) (d : Device) (a : RegAddr) (v : Byte) :
    (t.memWrite d a v).Meets (fun _ u => s.Unfailed u) s.EndsAtFirstFailure := by
  rcases t.memWrite_cases d a v with ⟨hw, heq⟩ | ⟨e, hw, heq⟩ | ⟨-, heq⟩ <;> rw [heq]
  · exact h.writeOk hw a v
  · exact h.writeError hw a v
  · exact h.writeSilent d a v

end

/-! ### The commands -/

/-- A SCAN is its column read, then its row-select write (R103); filing the sample makes no call. -/
theorem scanBody_meets (s : State) : (scanBody s).Meets (fun _ t => s.Unfailed t) s.EndsAtFirstFailure :=
  ((State.Unfailed.refl s).memRead .key _).andThen fun c t h =>
    have filed : s.Unfailed { t with scanner := t.scanner.fileSample c } := h
    (filed.memWrite .key _ _).andThen fun _ _ h => h

theorem execScan_endsAtFirstFailure {s t : State} (h : execScan s = .next t) : s.EndsAtFirstFailure t := by
  cases h
  exact (scanBody_meets s).finish fun vs _ h => h.answerOk vs

/-- READBLOCK goes on while its calls do not fail (R132), and its range check comes before its first call (R134). -/
theorem readBlock_endsAtFirstFailure (base : LogicalAddr) (length : BitVec 16) (s : State) :
    s.EndsAtFirstFailure (readBlock base length s) := by
  refine readBlock_induct (P := s.Unfailed) base length s (.refl s) ?initOk ?switchOk ?readByte ?readError ?readSilent
    ?switchError ?switchSilent ?success ?rangeError
  case initOk => exact fun t _ h _ hr => h.readByte (d := .mem) hr t.params.gconfAddr
  case switchOk => exact fun _ _ h _ hw => (h.writeOk (d := .mem) hw _ _).sleep _
  case readByte => exact fun _ _ _ h hr => (h.readByte (d := .mem) hr _).sleep _
  case readError => exact fun _ _ _ h _ hr => h.readError hr _
  case readSilent => exact fun _ _ h _ _ => h.readSilent _ _
  case switchError => exact fun _ _ _ h hw => h.writeError (d := .mem) hw _ _
  case switchSilent => exact fun _ _ h _ => h.writeSilent .mem _ _
  case success => exact fun _ vs h _ => h.answerOk vs
  case rangeError => exact fun _ => s.endsAtFirstFailure_rangeError

/-- INVALIDATE makes no call (R140). -/
theorem State.unfailed_dropShadow (s : State) : s.Unfailed s.dropShadow :=
  ⟨s.dropShadow_responses, [], by simp, List.forall_mem_nil _⟩

/-- Settles O16: SCAN and READBLOCK end at their first failing call, and INVALIDATE answers Ok without a call. -/
theorem errorsEndTheCommandPrecisely : Obligations.ErrorsEndTheCommandPrecisely := by
  intro i s t r h
  suffices hend : s.EndsAtFirstFailure t from hend r
  cases i with
  | scan => exact execScan_endsAtFirstFailure h
  | readblock base length => cases h; exact readBlock_endsAtFirstFailure base length s
  | invalidate => cases h; exact (State.unfailed_dropShadow s).answerOk []

end Sys2Proof.Machine
end

section
/-! SUPPORT. Proofs/IdleAndStuck: the steps that run no command: an idle block left alone, a block without an answer
(R184, R41, U6). -/

namespace Sys2Proof.Machine

/-- Settles O11: an idle block without a host action takes the step's first branch, an unfinished one its fault. -/
theorem idleHoldsUnfinishedStops : Obligations.IdleHoldsUnfinishedStops :=
  ⟨fun s hidle hhost => by simp [step, State.fetch, hidle, hhost], fun _ => step_of_unfinished⟩

end Sys2Proof.Machine
end


section
/-! SUPPORT. Proofs/ResetZero: the state elements right after reset, and the step that takes the reset signal
(R200, R201). -/

namespace Sys2Proof.Machine

theorem Scanner.reset_hist_get (j : Fin Config.slots) : Scanner.reset.hist.get j = 0#64 := by
  simp [Scanner.reset, Vector.get_eq_getElem]

/-- The reset signal is taken from the host, and the block is reset (R200). -/
theorem step_of_reset {s : State} {rest : List HostAction} (hidle : s.phase = .idle) (hhost : s.host = .reset :: rest) :
    step s = .next (State.resetBlock { s with host := rest }) := by
  simp [step, State.fetch, hidle, hhost]

/-- Settles O12: both states hold `Scanner.reset` and `Accessor.reset`, and `resetBlock` leaves the rest of the state. -/
theorem resetZeroesTheBlock : Obligations.ResetZeroesTheBlock :=
  ⟨Scanner.reset_hist_get, rfl, rfl, rfl, rfl, rfl, rfl, fun _ _ hidle hhost =>
    ⟨_, step_of_reset hidle hhost, Scanner.reset_hist_get, rfl, rfl, rfl, rfl, rfl, rfl, rfl, rfl, rfl, rfl⟩⟩

end Sys2Proof.Machine
end
